-- ==== Sys2Proof/Word.lean ====
section
/-! DEFINITION. The words of the KF1600 engine: lanes, bytes, command words, register numbers.

Addresses, lengths and the operand registers are naturals (rule R135: "Addresses and lengths are
naturals"); only what the spec treats as bits is a bit vector. -/

namespace Sys2Proof

/-- A lane: one unsigned 64-bit value of the state (rules R9, R20). -/
abbrev Lane := BitVec 64

/-- One byte of memory, of a block or of a digest (rule R50: "A byte is 8 bits"). -/
abbrev Byte := BitVec 8

/-- A command word, the unit a host writes to CMD (rule R70). -/
abbrev CmdWord := BitVec 32

/-- A register number of the register port (rule R29: "`n` is a 3-bit register number"). -/
abbrev RegNum := BitVec 3

/-- The 1600-bit state: 25 lanes `A[0]` to `A[24]` (rule R20). -/
abbrev Lanes := Vector Lane 25

/-- A block: 136 consecutive bytes, the rate (rules R6, R15). -/
abbrev Block := Vector Byte 136

end Sys2Proof
end

