-- ==== Sys2Proof/Config.lean ====
section
/-! DEFINITION. What an implementation fixes (rule R7: `AW` and `MemOK`) and the one free value of the model.

The parameters of rule R6 are "Fixed for this variant; not configurable": 25 lanes of 64 bits, 24 rounds,
a rate of 136 bytes (17 lanes), a capacity of 512 bits (lanes 17 to 24), a digest of 32 bytes (4 lanes).
They stand as numerals in the types and definitions that use them. -/

namespace Sys2Proof

/-- The kind of a memory access, the second argument of `MemOK(addr, kind)` (rule R7). -/
inductive AccessKind where
  | read
  | write
  deriving DecidableEq, Repr

/-- A range of addresses that the platform refuses to the engine for one kind of access. -/
structure Region where
  base : Nat
  size : Nat
  kind : AccessKind
  deriving DecidableEq, Repr

/-- The open parameters of rule R7, as plain data: the address width `AW`, and `MemOK` by the regions where it
is false.  Every predicate on the `2^AW` addresses is given by some such list (DESIGN CHOICE, log 2). -/
structure Platform where
  aw : Nat
  denied : List Region
  deriving DecidableEq, Repr

/-- The platform of the reset state: `AW` at its default 32 (rule R7), and `MemOK` true everywhere, rule R58's
"platform with plain memory everywhere" (DESIGN CHOICE, log 2). -/
def Config.platform : Platform := { aw := 32, denied := [] }

/-- FREE VALUE (rule R171, log 8).  Whether, in the `k`-th reset that arrives during a command, the write to the
byte at address `a` had landed.  Nothing constrains it. -/
opaque Config.resetLanded : Nat → Nat → Bool

end Sys2Proof
end

