-- ==== Sys2Proof/Syntax.lean ====
section
/-! DEFINITION. The fifteen commands of rule R74, one constructor per row of the opcode table. -/

namespace Sys2Proof

/-- A command.  `round` and `iota` (format I) carry the immediate `arg`, an unsigned number (rule R72); the other
operands of every command are implicit (rule R73). -/
inductive Instr where
  /-- NOP, rule R132. -/
  | nop
  /-- INIT, rule R111. -/
  | init
  /-- ABSORB, rule R113. -/
  | absorb
  /-- FINAL, rule R115. -/
  | final
  /-- SQUEEZE, rule R119. -/
  | squeeze
  /-- HASH, rule R120. -/
  | hash
  /-- LDST, rule R130. -/
  | ldst
  /-- STST, rule R131. -/
  | stst
  /-- PERMUTE, rule R103. -/
  | permute
  /-- ROUND, rule R101. -/
  | round (arg : Nat)
  /-- THETA, rule R90. -/
  | theta
  /-- RHO, rule R91. -/
  | rho
  /-- PI, rule R92. -/
  | pi
  /-- CHI, rule R93. -/
  | chi
  /-- IOTA, rule R94. -/
  | iota (arg : Nat)
  deriving DecidableEq, Repr

end Sys2Proof
end

