-- ==== Sys2Proof/WellFormed.lean ====
section
/-! DEFINITION. Which commands have an encoding: `arg` must fit its field `w[15:8]` (rules R71, R72).

An `arg` from 24 to 255 is well formed: it is encoded and decoded, and refused at execution by ERR_ARG (rule R79). -/

namespace Sys2Proof

/-- The command can be written as a command word: its `arg`, if it has one, is in `0 … 255` (rule R72). -/
def Instr.wf : Instr → Bool
  | .round arg => decide (arg < 256)
  | .iota arg => decide (arg < 256)
  | .nop => true
  | .init => true
  | .absorb => true
  | .final => true
  | .squeeze => true
  | .hash => true
  | .ldst => true
  | .stst => true
  | .permute => true
  | .theta => true
  | .rho => true
  | .pi => true
  | .chi => true

end Sys2Proof
end

