-- ==== Sys2Proof/Decode.lean ====
section
/-! DEFINITION. Decoding of a command word by the table of rule R74, and the encoder written from the same table. -/

namespace Sys2Proof

/-- One row of the opcode table of rule R74: a word `w` selects the row when `w & mask = pattern`, and the command
is then made from the field `arg = w[15:8]`. -/
structure OpcodeRow where
  mask : CmdWord
  pattern : CmdWord
  make : Byte → Instr

/-- A format Z row: all 32 bits of the word are fixed (rules R71, R75). -/
def rowZ (word : CmdWord) (i : Instr) : OpcodeRow :=
  { mask := 0xFFFFFFFF#32, pattern := word, make := fun _ => i }

/-- A format I row: `w[7:0]` and `w[31:16]` are fixed, `w[15:8]` is the unsigned `arg` (rules R71, R72, R75). -/
def rowI (word : CmdWord) (make : Nat → Instr) : OpcodeRow :=
  { mask := 0xFFFF00FF#32, pattern := word, make := fun arg => make arg.toNat }

/-- The opcode map of rule R74, row by row. -/
def opcodeTable : List OpcodeRow :=
  [ rowZ 0x00000000#32 .nop,
    rowZ 0x00000001#32 .init,
    rowZ 0x00000002#32 .absorb,
    rowZ 0x00000003#32 .final,
    rowZ 0x00000004#32 .squeeze,
    rowZ 0x00000005#32 .hash,
    rowZ 0x00000008#32 .ldst,
    rowZ 0x00000009#32 .stst,
    rowZ 0x00000010#32 .permute,
    rowI 0x00000011#32 .round,
    rowZ 0x00000018#32 .theta,
    rowZ 0x00000019#32 .rho,
    rowZ 0x0000001A#32 .pi,
    rowZ 0x0000001B#32 .chi,
    rowI 0x0000001C#32 .iota ]

/-- The field `op`, bits 7:0 (rule R71). -/
def opField (w : CmdWord) : Byte := w.extractLsb' 0 8

/-- The field `arg`, bits 15:8 (rule R71). -/
def argField (w : CmdWord) : Byte := w.extractLsb' 8 8

/-- The field `zero`, bits 31:16 (rule R71). -/
def zeroField (w : CmdWord) : BitVec 16 := w.extractLsb' 16 16

/-- Why a word is no command: the three causes of rule R77.  All three raise ERR_ILLEGAL. -/
inductive DecodeError where
  /-- `w[31:16] != 0`. -/
  | zeroFieldNotZero
  /-- `op` is outside the fifteen of rule R74. -/
  | unknownOp
  /-- A format Z opcode with `w[15:8] != 0`. -/
  | argFieldNotZero
  deriving DecidableEq, Repr

/-- Does the word select the row (rule R75)? -/
def OpcodeRow.selects (row : OpcodeRow) (w : CmdWord) : Bool := w &&& row.mask == row.pattern

/-- The name of the cause for a word that selects no row (rule R77). -/
def rejectionCause (w : CmdWord) : DecodeError :=
  if zeroField w ≠ 0 then .zeroFieldNotZero
  else if opcodeTable.any (fun row => row.pattern == (opField w).zeroExtend 32) then .argFieldNotZero
  else .unknownOp

/-- `Decode(w)` of rule R75, total on all words: the command of the row that `w` selects, or the name of the cause
why it is none. -/
def decode (w : CmdWord) : Except DecodeError Instr :=
  match opcodeTable.find? (fun row => row.selects w) with
  | some row => .ok (row.make (argField w))
  | none => .error (rejectionCause w)

/-- The opcode of a command, column `op` of rule R74. -/
def opcode : Instr → Byte
  | .nop => 0x00#8
  | .init => 0x01#8
  | .absorb => 0x02#8
  | .final => 0x03#8
  | .squeeze => 0x04#8
  | .hash => 0x05#8
  | .ldst => 0x08#8
  | .stst => 0x09#8
  | .permute => 0x10#8
  | .round _ => 0x11#8
  | .theta => 0x18#8
  | .rho => 0x19#8
  | .pi => 0x1A#8
  | .chi => 0x1B#8
  | .iota _ => 0x1C#8

/-- The content of the field `arg`: the immediate of format I, 0 in format Z (rule R71). -/
def argOf : Instr → Byte
  | .round arg => BitVec.ofNat 8 arg
  | .iota arg => BitVec.ofNat 8 arg
  | .nop => 0#8
  | .init => 0#8
  | .absorb => 0#8
  | .final => 0#8
  | .squeeze => 0#8
  | .hash => 0#8
  | .ldst => 0#8
  | .stst => 0#8
  | .permute => 0#8
  | .theta => 0#8
  | .rho => 0#8
  | .pi => 0#8
  | .chi => 0#8

/-- The command word of a command: `zero`, `arg` and `op` from the top down (rule R71). -/
def encode (i : Instr) : CmdWord := (0#16 ++ argOf i ++ opcode i : BitVec (16 + 8 + 8))

/-- The instruction the decoder reads from the table word `w` of `nbits` bits.  A command is one 32-bit word
(rule R70), so the word is its own layout: bit 0 of the table is bit 0 of the value written to CMD. -/
def decodeTableWord (nbits w : Nat) : Option Instr :=
  match decode (BitVec.ofNat 32 (w % 2 ^ nbits)) with
  | .ok i => some i
  | .error _ => none

end Sys2Proof
end

