-- ==== Sys2Proof/Machine/State.lean ====
section
/-! DEFINITION. The state of the engine and of the host's side of its ports, as plain data; the reset state; the
reasons a step can stop. -/

namespace Sys2Proof.Machine

/-- PHASE, the wrapper's progress through one digest (rule R32).  The value 3 never occurs (rule R31). -/
inductive Phase where
  | idle
  | absorbing
  | done
  deriving DecidableEq, Repr

/-- ERR, the sticky error code (rules R31, R33, R141).  The values 5 to 15 never occur. -/
inductive ErrCode where
  /-- 0, no error. -/
  | noError
  /-- 1, ERR_ILLEGAL. -/
  | illegal
  /-- 2, ERR_ARG. -/
  | arg
  /-- 3, ERR_SEQ. -/
  | seq
  /-- 4, ERR_BUS. -/
  | bus
  deriving DecidableEq, Repr

/-- Memory (rule R50): the bytes that are not `memFill`, by strictly rising address. -/
abbrev Memory := List Host.Cell

/-- What an address that no cell lists reads as.  The spec leaves the launch memory to the platform (rules R42,
R59); DESIGN CHOICE, log 3: with one fixed filling byte every launch memory is a list of cells. -/
def memFill : Byte := 0#8

/-- What the host does to the engine and to its own memory, one access at a time.  The queue of these stands in
`State.pending`; it is the outside world's side (rules R8, R29, R61, R170, R171). -/
inductive HostOp where
  /-- `HostWrite(n, v)` (rule R29). -/
  | write (n : RegNum) (v : Nat)
  /-- `HostRead(n)` (rule R29). -/
  | read (n : RegNum)
  /-- The host stores a byte in its memory (rules R8, R61). -/
  | memWrite (a : Nat) (v : Byte)
  /-- The host reads a byte of its memory (rules R8, R61). -/
  | memRead (a : Nat)
  /-- Reset is applied and released between two commands (rule R170). -/
  | reset
  /-- `HostWrite(0, w)`, and reset arrives while that command is executing (rule R171). -/
  | resetDuring (w : CmdWord)
  deriving DecidableEq, Repr

/-- The state of the machine. -/
structure State where
  /-- `A[0 … 24]` (rule R20). -/
  lanes : Lanes
  /-- PHASE (rule R32). -/
  phase : Phase
  /-- ERR (rule R33). -/
  err : ErrCode
  /-- ECMD, 32 bits (rule R38). -/
  ecmd : CmdWord
  /-- SRC, `AW` bits (rule R35). -/
  src : Nat
  /-- LEN, `AW` bits (rule R36). -/
  len : Nat
  /-- DST, `AW` bits (rule R37). -/
  dst : Nat
  /-- The host's memory (rules R50, R59). -/
  mem : Memory
  /-- The parameters `AW` and `MemOK` (rule R7); no step changes them. -/
  platform : Platform
  /-- The host's next accesses, the first at the head (the model's own field, log 1). -/
  pending : List HostOp
  /-- The values the host's reads have returned, oldest first (the model's own field, log 1). -/
  replies : List Nat
  /-- How many resets have arrived during a command: the number of the next draw of `Config.resetLanded` (the
  model's own field, log 8). -/
  draws : Nat
  deriving DecidableEq, Repr

/-- BUSY (rule R34): "every `HostRead(1)` a model can perform sees `BUSY = 0`".  It is hard-wired here, because a
command is one atomic transition (rule R8; log 5). -/
def State.busy (_ : State) : Bool := false

/-- Why the machine stops with a fault. -/
inductive Fault where
  /-- Raised by the host's own memory accesses (`HostOp.memWrite`, `HostOp.memRead`) at an address that is not
  below `2^AW`: no such address exists (rule R50).  No command raises it, since rule R58 refuses such ranges by
  ERR_BUS.  Safe: the model stops where the spec gives nothing to access (log 4). -/
  | noSuchAddress (a : Nat)
  deriving DecidableEq, Repr

/-- Why an instruction is refused. -/
inductive Refusal where
  /-- Answered only by an arm of `exec` whose instruction has no meaning yet; there is no such arm.  Safe. -/
  | notModelled (mnemonic : String)
  deriving DecidableEq, Repr

/-- The machine right after reset (rules R42, R170): every lane 0, PHASE IDLE, ERR, ECMD, SRC, LEN and DST 0.
Memory lists nothing (log 3), the platform is `Config.platform` (log 2) and the host has issued nothing yet. -/
def State.reset : State :=
  { lanes := Vector.replicate 25 0#64
    phase := .idle
    err := .noError
    ecmd := 0#32
    src := 0
    len := 0
    dst := 0
    mem := []
    platform := Config.platform
    pending := []
    replies := []
    draws := 0 }

end Sys2Proof.Machine
end

