-- ==== Sys2Proof/Machine/Operands.lean ====
section
/-! DEFINITION. Operands: lane positions, bytes and lanes, the memory ranges a command names, its argument check. -/

namespace Sys2Proof.Machine

/-- `rotl64(a, n)` of rule R11: bit `k` of `a` becomes bit `(k + n) mod 64`. -/
def rotl64 (a : Lane) (n : Nat) : Lane := a.rotateLeft n

/-- The position of the lane in column `x` and row `y` (rule R21: `i = x + 5y`). -/
def pos (x y : Fin 5) : Fin 25 := ⟨x.val + 5 * y.val, by omega⟩

/-- The column of position `i` (rule R21: `x = i mod 5`). -/
def col (i : Fin 25) : Fin 5 := ⟨i.val % 5, by omega⟩

/-- The row of position `i` (rule R21: `y = i div 5`). -/
def row (i : Fin 25) : Fin 5 := ⟨i.val / 5, by omega⟩

/-- `byte(v, j)` of rule R10: bits `8j+7 … 8j` of a lane. -/
def laneByte (v : Lane) (j : Nat) : Byte := v.extractLsb' (8 * j) 8

/-- `LE64(b0, …, b7)` of rule R10: the little-endian assembly of eight bytes into a lane. -/
def le64 (b : Fin 8 → Byte) : Lane :=
  (b 7 ++ b 6 ++ b 5 ++ b 4 ++ b 3 ++ b 2 ++ b 1 ++ b 0 : BitVec (8 + 8 + 8 + 8 + 8 + 8 + 8 + 8))

/-- The first `n` bytes of the memory image of the state: byte `8i + j` is `byte(A[i], j)` (rules R52, R53). -/
def imageBytes (A : Lanes) (n : Nat) : List Byte :=
  (List.range n).map fun m => laneByte (A.getD (m / 8) 0#64) (m % 8)

/-- The digest, "the first 32 bytes (4 lanes) of the resulting state" (rules R52, R119). -/
def digest (A : Lanes) : List Byte := imageBytes A 32

/-- The memory image of the whole state, 200 bytes (rule R53). -/
def stateImage (A : Lanes) : List Byte := imageBytes A 200

/-- A range of addresses `[base, base + size)` that a command reads or writes (rule R51). -/
structure MemRange where
  base : Nat
  size : Nat
  kind : AccessKind
  deriving DecidableEq, Repr

/-- The addresses of a range in ascending order, each once (rule R56). -/
def MemRange.addrs (r : MemRange) : List Nat := List.range' r.base r.size

/-- The ranges a command touches, the input range first (rules R51, R76 step 5). -/
def ranges (i : Instr) (s : State) : List MemRange :=
  match i with
  | .absorb => [⟨s.src, 136, .read⟩]
  | .final => [⟨s.src, s.len, .read⟩]
  | .squeeze => [⟨s.dst, 32, .write⟩]
  | .hash => [⟨s.src, s.len, .read⟩, ⟨s.dst, 32, .write⟩]
  | .ldst => [⟨s.src, 200, .read⟩]
  | .stst => [⟨s.dst, 200, .write⟩]
  | .nop => []
  | .init => []
  | .permute => []
  | .round _ => []
  | .theta => []
  | .rho => []
  | .pi => []
  | .chi => []
  | .iota _ => []

/-- The byte accesses a command performs, in order: its reads in ascending order, then its writes in ascending
order, one for each byte of its ranges (rules R56, R57). -/
def accesses (i : Instr) (s : State) : List (AccessKind × Nat) :=
  (ranges i s).flatMap fun r => r.addrs.map fun a => (r.kind, a)

/-- The addresses a command writes (rule R51). -/
def writtenAddrs (i : Instr) (s : State) : List Nat :=
  ((ranges i s).filter fun r => r.kind == .write).flatMap MemRange.addrs

/-- `ArgOK(row, w, LEN)` of rule R79. -/
def argOK (i : Instr) (len : Nat) : Bool :=
  match i with
  | .round arg => decide (arg < 24)
  | .iota arg => decide (arg < 24)
  | .final => decide (len < 136)
  | .nop => true
  | .init => true
  | .absorb => true
  | .squeeze => true
  | .hash => true
  | .ldst => true
  | .stst => true
  | .permute => true
  | .theta => true
  | .rho => true
  | .pi => true
  | .chi => true

/-- `MemOK(addr, kind)`, the platform's predicate (rule R7). -/
def memOK (p : Platform) (a : Nat) (k : AccessKind) : Bool :=
  !p.denied.any fun r => r.kind == k && decide (r.base ≤ a) && decide (a < r.base + r.size)

/-- `RangeOK(base, n, kind)` of rule R58. -/
def rangeOK (p : Platform) (r : MemRange) : Bool :=
  r.size == 0 || (decide (r.base + r.size ≤ 2 ^ p.aw) && r.addrs.all fun a => memOK p a r.kind)

end Sys2Proof.Machine
end

