-- ==== Sys2Proof/Machine/Flags.lean ====
section
/-! DEFINITION. The status bits, the only flags there are (rule R40): PHASE and the phases a command is allowed
in, ERR, and the layout of STATUS. -/

namespace Sys2Proof.Machine

/-- PHASE in bits 1:0 of STATUS (rule R31). -/
def Phase.code : Phase → BitVec 2
  | .idle => 0#2
  | .absorbing => 1#2
  | .done => 2#2

/-- ERR in bits 7:4 of STATUS (rules R31, R141). -/
def ErrCode.code : ErrCode → BitVec 4
  | .noError => 0#4
  | .illegal => 1#4
  | .arg => 2#4
  | .seq => 3#4
  | .bus => 4#4

/-- `Allowed(row)` of rule R78. -/
def allowed (i : Instr) (p : Phase) : Bool :=
  match i with
  | .nop => true
  | .init => true
  | .absorb => p == .absorbing
  | .final => p == .absorbing
  | .squeeze => p == .done
  | .hash => true
  | .ldst => p == .idle
  | .stst => p == .idle
  | .permute => p == .idle
  | .round _ => p == .idle
  | .theta => p == .idle
  | .rho => p == .idle
  | .pi => p == .idle
  | .chi => p == .idle
  | .iota _ => p == .idle

/-- The STATUS word of rule R31: PHASE in bits 1:0, ERR in bits 7:4, BUSY in bit 8, zeros elsewhere. -/
def statusWord (s : State) : BitVec 32 :=
  (0#23 ++ BitVec.ofBool s.busy ++ s.err.code ++ 0#2 ++ s.phase.code : BitVec (23 + 1 + 4 + 2 + 2))

end Sys2Proof.Machine
end

