-- ==== Sys2Proof/Machine/Ops.lean ====
section
/-! DEFINITION. The named operations over the state: one setter per group of fields that changes together, memory,
error entry, reset, and the dispatch that every command shares. -/

namespace Sys2Proof.Machine

/-- The state with the lanes `A`. -/
def State.setLanes (s : State) (A : Lanes) : State := { s with lanes := A }

/-- The state with the phase `p`. -/
def State.setPhase (s : State) (p : Phase) : State := { s with phase := p }

/-- The state with the memory `m`. -/
def State.setMem (s : State) (m : Memory) : State := { s with mem := m }

/-- The state with SRC at `v` (rule R35: "stores `v mod 2^AW`"). -/
def State.setSrc (s : State) (v : Nat) : State := { s with src := v % 2 ^ s.platform.aw }

/-- The state with LEN at `v` (rule R36). -/
def State.setLen (s : State) (v : Nat) : State := { s with len := v % 2 ^ s.platform.aw }

/-- The state with DST at `v` (rule R37). -/
def State.setDst (s : State) (v : Nat) : State := { s with dst := v % 2 ^ s.platform.aw }

/-- The state with the queue `ops` of the host's next accesses. -/
def State.setPending (s : State) (ops : List HostOp) : State := { s with pending := ops }

/-- The state after the host's read has returned `v`. -/
def State.reply (s : State) (v : Nat) : State := { s with replies := s.replies ++ [v] }

/-- The state with one more draw of the free value used up (log 8). -/
def State.nextDraw (s : State) : State := { s with draws := s.draws + 1 }

/-- ERROR ENTRY, `raise Err(code)` for the command word `w` (rule R144): ERR and ECMD, "and nothing else". -/
def State.raiseError (s : State) (code : ErrCode) (w : CmdWord) : State := { s with err := code, ecmd := w }

/-- RETURN FROM ERROR, and reset in general (rules R146, R170): the registers and lanes at the values of rule R42;
memory, the platform and the host's side are not touched. -/
def State.applyReset (s : State) : State :=
  { State.reset with
    mem := s.mem, platform := s.platform, pending := s.pending, replies := s.replies, draws := s.draws }

/-- `MemRead(a, 1)` (rules R13, R59). -/
def Memory.read (m : Memory) (a : Nat) : Byte :=
  match m with
  | [] => memFill
  | (k, v) :: rest => if k = a then v else Memory.read rest a

/-- `MemWrite(a, 1, v)` (rules R13, R59), in canonical form: writing the filling byte unlists the address. -/
def Memory.write (m : Memory) (a : Nat) (v : Byte) : Memory :=
  match m with
  | [] => if v = memFill then [] else [(a, v)]
  | (k, w) :: rest =>
    if a < k then (if v = memFill then (k, w) :: rest else (a, v) :: (k, w) :: rest)
    else if a = k then (if v = memFill then rest else (a, v) :: rest)
    else (k, w) :: Memory.write rest a v

/-- Every listed address is above `lo`, the addresses rise strictly, and no cell lists the filling byte. -/
def Memory.wfAbove (m : Memory) (lo : Option Nat) : Bool :=
  match m with
  | [] => true
  | (k, v) :: rest => lo.all (fun l => decide (l < k)) && v != memFill && Memory.wfAbove rest (some k)

/-- The canonical form of memory. -/
def Memory.wf (m : Memory) : Bool := Memory.wfAbove m none

/-- The `n` bytes from `base` up, in ascending address order (rules R13, R56). -/
def Memory.readBytes (m : Memory) (base n : Nat) : List Byte := (List.range' base n).map fun a => m.read a

/-- Store the bytes from `base` up, in ascending address order (rule R56). -/
def Memory.writeBytes (m : Memory) (base : Nat) (bs : List Byte) : Memory :=
  match bs with
  | [] => m
  | b :: rest => Memory.writeBytes (m.write base b) (base + 1) rest

/-- Store, at each of the addresses, the byte that `new` holds there. -/
def Memory.copyFrom (m : Memory) (new : Memory) (addrs : List Nat) : Memory :=
  match addrs with
  | [] => m
  | a :: rest => Memory.copyFrom (m.write a (new.read a)) new rest

/-- Steps 3 to 5 of rule R76: the error that the command `i` raises, `noError` when it is admitted. -/
def admission (i : Instr) (s : State) : ErrCode :=
  if argOK i s.len = false then .arg
  else if allowed i s.phase = false then .seq
  else if (ranges i s).all (rangeOK s.platform) = false then .bus
  else .noError

/-- Rule R76 for the decoded command `i`, shared by all fifteen: nothing while ERR is set (step 1, rule R145); the
error entry if a check fails (steps 3 to 5), with the command's own word in ECMD (rule R38); else the command's
effect (step 6). -/
def command (i : Instr) (effect : State → State) (s : State) : Host.Outcome State Fault Refusal :=
  if s.err ≠ .noError then .next s
  else
    match admission i s with
    | .noError => .next (effect s)
    | code => .next (s.raiseError code (encode i))

end Sys2Proof.Machine
end

