-- ==== Sys2Proof/Machine/Steps.lean ====
section
/-! DEFINITION. The five step mappings THETA, RHO, PI, CHI, IOTA: the functions and the commands (rules R90 to R96),
with the constant tables they use (rules R24 to R27: no command, no reset and no access reaches them). -/

namespace Sys2Proof.Machine

/-- The round-constant ROM `RC[0 … 23]` (rule R24). -/
def rcTable : Vector Lane 24 :=
  #v[0x0000000000000001#64, 0x0000000000008082#64, 0x800000000000808A#64, 0x8000000080008000#64,
     0x000000000000808B#64, 0x0000000080000001#64, 0x8000000080008081#64, 0x8000000000008009#64,
     0x000000000000008A#64, 0x0000000000000088#64, 0x0000000080008009#64, 0x000000008000000A#64,
     0x000000008000808B#64, 0x800000000000008B#64, 0x8000000000008089#64, 0x8000000000008003#64,
     0x8000000000008002#64, 0x8000000000000080#64, 0x000000000000800A#64, 0x800000008000000A#64,
     0x8000000080008081#64, 0x8000000000008080#64, 0x0000000080000001#64, 0x8000000080008008#64]

/-- `RC[r]` (rule R24), for `r` below 24; the commands refuse every other `r` (rule R79). -/
def rc (r : Nat) : Lane := rcTable.getD r 0#64

/-- The rotation-offset ROM (rule R25): 24 entries of 6 bits, entry `k` holding `ROT[k + 1]`. -/
def rotTable : Vector (BitVec 6) 24 :=
  #v[1#6, 62#6, 28#6, 27#6, 36#6, 44#6, 6#6, 55#6, 20#6, 3#6, 10#6, 43#6,
     25#6, 39#6, 41#6, 45#6, 15#6, 21#6, 8#6, 18#6, 2#6, 61#6, 56#6, 14#6]

/-- The left rotation of the lane at position `i`: `ROT[i]`, and 0 at position 0, which has no entry (rule R25). -/
def rotOf (i : Fin 25) : Nat := if i.val = 0 then 0 else (rotTable.getD (i.val - 1) 0#6).toNat

/-- `PISRC[0 … 24]` (rule R26). -/
def piSrcTable : Vector (Fin 25) 25 :=
  #v[0, 6, 12, 18, 24, 3, 9, 10, 16, 22, 1, 7, 13, 19, 20, 4, 5, 11, 17, 23, 2, 8, 14, 15, 21]

/-- `PISRC[j]`, the position whose lane moves to position `j` (rule R26). -/
def piSrc (j : Fin 25) : Fin 25 := piSrcTable[j]

/-- The column parity `C[x]` (rule R90). -/
def thetaC (A : Lanes) (x : Fin 5) : Lane :=
  A[pos x 0] ^^^ A[pos x 1] ^^^ A[pos x 2] ^^^ A[pos x 3] ^^^ A[pos x 4]

/-- The theta term `D[x] = C[(x+4) mod 5] ^ rotl64(C[(x+1) mod 5], 1)` (rule R90). -/
def thetaD (A : Lanes) (x : Fin 5) : Lane := thetaC A (x + 4) ^^^ rotl64 (thetaC A (x + 1)) 1

/-- `Theta(A)` (rule R90). -/
def theta (A : Lanes) : Lanes := Vector.ofFn fun i => A[i] ^^^ thetaD A (col i)

/-- `Rho(A)` (rule R91). -/
def rho (A : Lanes) : Lanes := Vector.ofFn fun i => rotl64 A[i] (rotOf i)

/-- `Pi(A)` (rule R92). -/
def piStep (A : Lanes) : Lanes := Vector.ofFn fun j => A[piSrc j]

/-- `Chi(A)` (rule R93): the indices wrap inside the row. -/
def chi (A : Lanes) : Lanes :=
  Vector.ofFn fun i => A[i] ^^^ (~~~ A[pos (col i + 1) (row i)] &&& A[pos (col i + 2) (row i)])

/-- `Iota(A, r)` (rule R94). -/
def iota (A : Lanes) (r : Nat) : Lanes := Vector.ofFn fun i => if i.val = 0 then A[i] ^^^ rc r else A[i]

/-- THETA (rules R90, R95). -/
def execTheta (s : State) : Host.Outcome State Fault Refusal :=
  command .theta (fun s => s.setLanes (theta s.lanes)) s

/-- RHO (rules R91, R95). -/
def execRho (s : State) : Host.Outcome State Fault Refusal :=
  command .rho (fun s => s.setLanes (rho s.lanes)) s

/-- PI (rules R92, R95). -/
def execPi (s : State) : Host.Outcome State Fault Refusal :=
  command .pi (fun s => s.setLanes (piStep s.lanes)) s

/-- CHI (rules R93, R95). -/
def execChi (s : State) : Host.Outcome State Fault Refusal :=
  command .chi (fun s => s.setLanes (chi s.lanes)) s

/-- IOTA with its immediate (rules R94, R95). -/
def execIota (arg : Nat) (s : State) : Host.Outcome State Fault Refusal :=
  command (.iota arg) (fun s => s.setLanes (iota s.lanes arg)) s

end Sys2Proof.Machine
end

