-- ==== Sys2Proof/Machine/Permutation.lean ====
section
/-! DEFINITION. The round and the permutation: ROUND and PERMUTE (rules R100 to R104). -/

namespace Sys2Proof.Machine

/-- `Round(A, r)` (rule R100). -/
def keccakRound (A : Lanes) (r : Nat) : Lanes := iota (chi (piStep (rho (theta A)))) r

/-- `KeccakF(A)` (rule R102): rounds 0, 1, …, 23 in this order. -/
def keccakF (A : Lanes) : Lanes := (List.range 24).foldl keccakRound A

/-- ROUND with its immediate (rule R101). -/
def execRound (arg : Nat) (s : State) : Host.Outcome State Fault Refusal :=
  command (.round arg) (fun s => s.setLanes (keccakRound s.lanes arg)) s

/-- PERMUTE (rule R103). -/
def execPermute (s : State) : Host.Outcome State Fault Refusal :=
  command .permute (fun s => s.setLanes (keccakF s.lanes)) s

end Sys2Proof.Machine
end

