-- ==== Sys2Proof/Machine/Sponge.lean ====
section
/-! DEFINITION. The sponge wrapper: INIT, ABSORB, FINAL, SQUEEZE, HASH (rules R110 to R124). -/

namespace Sys2Proof.Machine

/-- The all-zero state (rule R111). -/
def zeroLanes : Lanes := Vector.replicate 25 0#64

/-- Lane `k` of a block: `LE64(Bk[8k], …, Bk[8k+7])` (rules R52, R112). -/
def blockLane (bk : Block) (k : Nat) : Lane := le64 fun j => bk.getD (8 * k + j.val) 0#8

/-- `XorBlock(A, Bk)` (rule R112): lanes 0 to 16 only. -/
def xorBlock (A : Lanes) (bk : Block) : Lanes :=
  Vector.ofFn fun k => if k.val < 17 then A[k] ^^^ blockLane bk k.val else A[k]

/-- One block absorbed: the block XOR, then the permutation (rules R113, R115). -/
def absorbBlock (A : Lanes) (bk : Block) : Lanes := keccakF (xorBlock A bk)

/-- `PadBlock(T)` (rule R116): the tail, then zeros, with `0x01` OR-ed into byte `r` and `0x80` into byte 135.
Byte `r`, not "byte 0": `spec/90_conflicts.md` C1. -/
def padBlock (t : List Byte) : Block :=
  Vector.ofFn fun j =>
    t.getD j.val 0x00#8 ||| (if j.val = t.length then 0x01#8 else 0x00#8) |||
      (if j.val = 135 then 0x80#8 else 0x00#8)

/-- The full blocks of a message: bytes `136b … 136b+135` for `b` below `n div 136` (rules R114, R121). -/
def fullBlocks (m : List Byte) : List Block :=
  (List.range (m.length / 136)).map fun b => Vector.ofFn fun j => m.getD (136 * b + j.val) 0x00#8

/-- The tail of a message: its last `n mod 136` bytes (rule R114). -/
def messageTail (m : List Byte) : List Byte := m.drop (136 * (m.length / 136))

/-- The blocks a digest absorbs, in order: the full blocks, then the padded tail, always (rules R117, R121). -/
def paddedBlocks (m : List Byte) : List Block := fullBlocks m ++ [padBlock (messageTail m)]

/-- The state after a whole message has been absorbed from the all-zero state (rules R120, R121). -/
def absorbMessage (m : List Byte) : Lanes := (paddedBlocks m).foldl absorbBlock zeroLanes

/-- `Keccak256(m)` (rule R121). -/
def keccak256 (m : List Byte) : List Byte := digest (absorbMessage m)

/-- The block of 136 bytes at SRC (rule R113). -/
def readBlock (m : Memory) (base : Nat) : Block := Vector.ofFn fun j => m.read (base + j.val)

/-- INIT (rule R111). -/
def execInit (s : State) : Host.Outcome State Fault Refusal :=
  command .init (fun s => (s.setLanes zeroLanes).setPhase .absorbing) s

/-- ABSORB (rule R113).  SRC does not advance. -/
def execAbsorb (s : State) : Host.Outcome State Fault Refusal :=
  command .absorb (fun s => s.setLanes (absorbBlock s.lanes (readBlock s.mem s.src))) s

/-- FINAL (rule R115). -/
def execFinal (s : State) : Host.Outcome State Fault Refusal :=
  command .final
    (fun s => (s.setLanes (absorbBlock s.lanes (padBlock (s.mem.readBytes s.src s.len)))).setPhase .done) s

/-- SQUEEZE (rule R119).  The lanes are not changed. -/
def execSqueeze (s : State) : Host.Outcome State Fault Refusal :=
  command .squeeze (fun s => (s.setMem (s.mem.writeBytes s.dst (digest s.lanes))).setPhase .idle) s

/-- The effect of HASH when the message is `m` (rule R120): the digest goes to memory, the final state stays in
the lanes. -/
def hashEffect (m : List Byte) (s : State) : State :=
  ((s.setLanes (absorbMessage m)).setMem (s.mem.writeBytes s.dst (keccak256 m))).setPhase .idle

/-- HASH (rule R120).  The message is read whole before the digest is written (rule R57). -/
def execHash (s : State) : Host.Outcome State Fault Refusal :=
  command .hash (fun s => hashEffect (s.mem.readBytes s.src s.len) s) s

end Sys2Proof.Machine
end

