-- ==== Sys2Proof/Machine/Transfer.lean ====
section
/-! DEFINITION. State transfer, LDST and STST, and the system command NOP (rules R130 to R138). -/

namespace Sys2Proof.Machine

/-- The state whose 200-byte image lies at `base` (rules R53, R130). -/
def readLanes (m : Memory) (base : Nat) : Lanes :=
  Vector.ofFn fun i => le64 fun j => m.read (base + 8 * i.val + j.val)

/-- LDST (rule R130). -/
def execLdst (s : State) : Host.Outcome State Fault Refusal :=
  command .ldst (fun s => s.setLanes (readLanes s.mem s.src)) s

/-- STST (rule R131). -/
def execStst (s : State) : Host.Outcome State Fault Refusal :=
  command .stst (fun s => s.setMem (s.mem.writeBytes s.dst (stateImage s.lanes))) s

/-- NOP (rule R132): no effect. -/
def execNop (s : State) : Host.Outcome State Fault Refusal :=
  command .nop (fun s => s) s

end Sys2Proof.Machine
end

