-- ==== Sys2Proof/Machine/Dispatch.lean ====
section
/-! DEFINITION. `exec`: one arm per command, each a direct call of the command's meaning (rule R76, steps 3 to 6,
for a decoded command). -/

namespace Sys2Proof.Machine

def exec (i : Instr) (s : State) : Host.Outcome State Fault Refusal :=
  match i with
  -- system and sponge commands
  | .nop => Sys2Proof.Machine.execNop s
  | .init => Sys2Proof.Machine.execInit s
  | .absorb => Sys2Proof.Machine.execAbsorb s
  | .final => Sys2Proof.Machine.execFinal s
  | .squeeze => Sys2Proof.Machine.execSqueeze s
  | .hash => Sys2Proof.Machine.execHash s
  -- state transfer
  | .ldst => Sys2Proof.Machine.execLdst s
  | .stst => Sys2Proof.Machine.execStst s
  -- permutation and round
  | .permute => Sys2Proof.Machine.execPermute s
  | .round arg => Sys2Proof.Machine.execRound arg s
  -- the five step mappings
  | .theta => Sys2Proof.Machine.execTheta s
  | .rho => Sys2Proof.Machine.execRho s
  | .pi => Sys2Proof.Machine.execPi s
  | .chi => Sys2Proof.Machine.execChi s
  | .iota arg => Sys2Proof.Machine.execIota arg s

end Sys2Proof.Machine
end

