-- ==== Sys2Proof/Machine/Port.lean ====
section
/-! DEFINITION. The register port, the host's memory accesses and the reset input: what each of the host's accesses
does to the machine. -/

namespace Sys2Proof.Machine

/-- The registers of the port (rule R29). -/
inductive PortReg where
  | cmd
  | status
  | src
  | len
  | dst
  | ecmd
  | reserved
  deriving DecidableEq, Repr

/-- The register map of rule R29. -/
def portReg (n : RegNum) : PortReg :=
  if n = 0#3 then .cmd
  else if n = 1#3 then .status
  else if n = 2#3 then .src
  else if n = 3#3 then .len
  else if n = 4#3 then .dst
  else if n = 5#3 then .ecmd
  else .reserved

/-- `Issue(w)` of rule R76: refused while ERR is set, ERR_ILLEGAL if `w` is no command, else the command. -/
def issue (w : CmdWord) (s : State) : Host.Outcome State Fault Refusal :=
  if s.err ≠ .noError then .next s
  else
    match decode w with
    | .error _ => .next (s.raiseError .illegal w)
    | .ok i => exec i s

/-- `HostWrite(n, v)` (rules R29, R30, R35 to R37, R39): bits of `v` above the register are dropped; writes to
read-only and reserved registers change nothing. -/
def hostWrite (n : RegNum) (v : Nat) (s : State) : Host.Outcome State Fault Refusal :=
  match portReg n with
  | .cmd => issue (BitVec.ofNat 32 v) s
  | .src => .next (s.setSrc v)
  | .len => .next (s.setLen v)
  | .dst => .next (s.setDst v)
  | .status => .next s
  | .ecmd => .next s
  | .reserved => .next s

/-- The value `HostRead(n)` returns (rules R29, R31, R35 to R39): CMD and the reserved numbers read 0. -/
def hostRead (n : RegNum) (s : State) : Nat :=
  match portReg n with
  | .cmd => 0
  | .status => (statusWord s).toNat
  | .src => s.src
  | .len => s.len
  | .dst => s.dst
  | .ecmd => s.ecmd.toNat
  | .reserved => 0

/-- The addresses that the command word `w` writes if it is executed (rules R51, R171). -/
def wordWrites (w : CmdWord) (s : State) : List Nat :=
  match decode w with
  | .ok i => writtenAddrs i s
  | .error _ => []

/-- Reset while the command `w` is executing (rule R171): lanes and registers take the reset values; of the bytes
that the command was to write, those whose write had landed (the free value `Config.resetLanded`) hold the new
byte `done` holds, the others their old one. -/
def resetDuringState (w : CmdWord) (s done : State) : State :=
  let landed := (wordWrites w s).filter fun a => Config.resetLanded s.draws a
  (s.setMem (s.mem.copyFrom done.mem landed)).nextDraw.applyReset

/-- One access of the host. -/
def perform (op : HostOp) (s : State) : Host.Outcome State Fault Refusal :=
  match op with
  | .write n v => hostWrite n v s
  | .read n => .next (s.reply (hostRead n s))
  | .memWrite a v => if a < 2 ^ s.platform.aw then .next (s.setMem (s.mem.write a v)) else .fault (.noSuchAddress a)
  | .memRead a => if a < 2 ^ s.platform.aw then .next (s.reply (s.mem.read a).toNat) else .fault (.noSuchAddress a)
  | .reset => .next s.applyReset
  | .resetDuring w =>
    match issue w s with
    | .next done => .next (resetDuringState w s done)
    | .fault f => .fault f
    | .refused r => .refused r

/-- The host's next access, and the state in which the queue has moved past it. -/
def fetch (s : State) : Option (HostOp × State) :=
  match s.pending with
  | [] => none
  | op :: rest => some (op, s.setPending rest)

end Sys2Proof.Machine
end

