-- ==== Sys2Proof/Machine/Step.lean ====
section
/-! DEFINITION. One step: the host's next access is performed; with none waiting the engine is idle. -/

namespace Sys2Proof.Machine

/-- One step.  The order of commands "is the order in which the host writes them to CMD" (rule R28); "Between
commands it is idle and keeps all its state" (rule R155). -/
def step (s : State) : Host.Outcome State Fault Refusal :=
  match fetch s with
  | none => .next s
  | some (op, s') => perform op s'

/-- The state in which the host's next access is the write of the command word `w` to CMD (rule R30; log 1).  Bits
above `nbits` are zero.  Nothing else is changed. -/
def State.withFetchWord (s : State) (nbits w : Nat) : State :=
  s.setPending (.write 0#3 (w % 2 ^ nbits) :: s.pending)

end Sys2Proof.Machine
end

