-- ==== Sys2Proof/Machine/Script.lean ====
section
/-! DEFINITION. The script syntax of rule R80 and the pseudo-instructions of rule R81: what a host program is, and the
port accesses it stands for. -/

namespace Sys2Proof.Machine

/-- The registers a `wr` line names (rule R80). -/
inductive WrReg where
  | src
  | len
  | dst
  deriving DecidableEq, Repr

/-- The registers an `rd` line names (rule R80). -/
inductive RdReg where
  | status
  | src
  | len
  | dst
  | ecmd
  deriving DecidableEq, Repr

/-- One line of a script, "one port operation each" (rule R80). -/
inductive Line where
  | wr (r : WrReg) (v : Nat)
  | cmd (i : Instr)
  | rd (r : RdReg)
  deriving DecidableEq, Repr

/-- The register number of a `wr` line (rule R80). -/
def WrReg.number : WrReg → RegNum
  | .src => 2#3
  | .len => 3#3
  | .dst => 4#3

/-- The register number of an `rd` line (rule R80). -/
def RdReg.number : RdReg → RegNum
  | .status => 1#3
  | .src => 2#3
  | .len => 3#3
  | .dst => 4#3
  | .ecmd => 5#3

/-- The port access a line stands for; of a `wr` or `cmd` line, its encoding is the pair (register number, value)
(rule R80).  A `cmd` line is meant for a well-formed command (log 17). -/
def Line.op : Line → HostOp
  | .wr r v => .write r.number v
  | .cmd i => .write 0#3 (encode i).toNat
  | .rd r => .read r.number

/-- The pseudo-instructions of rule R81. -/
inductive Pseudo where
  | keccak256 (s n d : Nat)
  | absorbAt (s : Nat)
  | finalAt (s r : Nat)
  | squeezeTo (d : Nat)
  | f1600 (p : Nat)
  | roundSteps (i : Nat)
  deriving DecidableEq, Repr

/-- The expansions of rule R81.  They are meant for operands that an encoding admits: `roundSteps i` for `i` below
256 (log 17). -/
def Pseudo.expand : Pseudo → List Line
  | .keccak256 s n d => [.wr .src s, .wr .len n, .wr .dst d, .cmd .hash]
  | .absorbAt s => [.wr .src s, .cmd .absorb]
  | .finalAt s r => [.wr .src s, .wr .len r, .cmd .final]
  | .squeezeTo d => [.wr .dst d, .cmd .squeeze]
  | .f1600 p => [.wr .src p, .cmd .ldst, .cmd .permute, .wr .dst p, .cmd .stst]
  | .roundSteps i => [.cmd .theta, .cmd .rho, .cmd .pi, .cmd .chi, .cmd (.iota i)]

/-- The port accesses of a script, in order. -/
def scriptOps (lines : List Line) : List HostOp := lines.map Line.op

/-- HASH by the primitive commands (rule R122), for the operands `s`, `n`, `d` of the HASH. -/
def primitiveHash (s n d : Nat) : List Line :=
  [.cmd .init] ++
    ((List.range (n / 136)).flatMap fun b => Pseudo.expand (.absorbAt (s + 136 * b))) ++
    Pseudo.expand (.finalAt (s + 136 * (n / 136)) (n % 136)) ++
    Pseudo.expand (.squeezeTo d)

/-- The words of a line of text: what stands between blanks and commas (log 9). -/
def lineWords (text : List Char) : List (List Char) :=
  match text with
  | [] => []
  | c :: rest =>
    if c = ' ' ∨ c = ',' then lineWords rest
    else
      match rest with
      | [] => [[c]]
      | d :: _ =>
        if d = ' ' ∨ d = ',' then [c] :: lineWords rest
        else
          match lineWords rest with
          | [] => [[c]]
          | w :: ws => (c :: w) :: ws

/-- The value of a digit in the base `base`. -/
def digitValue (base : Nat) (c : Char) : Option Nat :=
  let v :=
    if '0'.toNat ≤ c.toNat ∧ c.toNat ≤ '9'.toNat then c.toNat - '0'.toNat
    else if 'A'.toNat ≤ c.toNat ∧ c.toNat ≤ 'F'.toNat then c.toNat - 'A'.toNat + 10
    else if 'a'.toNat ≤ c.toNat ∧ c.toNat ≤ 'f'.toNat then c.toNat - 'a'.toNat + 10
    else base
  if v < base then some v else none

/-- The natural that the digits write in the base `base`, after the digits already read as `acc`. -/
def digitsValue (base acc : Nat) (cs : List Char) : Option Nat :=
  match cs with
  | [] => some acc
  | c :: rest =>
    match digitValue base c with
    | none => none
    | some v => digitsValue base (base * acc + v) rest

/-- "Values are decimal or `0x` hexadecimal naturals" (rule R80). -/
def parseValue (cs : List Char) : Option Nat :=
  match cs with
  | [] => none
  | '0' :: 'x' :: d :: rest => digitsValue 16 0 (d :: rest)
  | c :: rest => digitsValue 10 0 (c :: rest)

/-- The format Z commands by their mnemonics, in upper case (rules R74, R80). -/
def mnemonicZ (w : List Char) : Option Instr :=
  if w = ['N', 'O', 'P'] then some .nop
  else if w = ['I', 'N', 'I', 'T'] then some .init
  else if w = ['A', 'B', 'S', 'O', 'R', 'B'] then some .absorb
  else if w = ['F', 'I', 'N', 'A', 'L'] then some .final
  else if w = ['S', 'Q', 'U', 'E', 'E', 'Z', 'E'] then some .squeeze
  else if w = ['H', 'A', 'S', 'H'] then some .hash
  else if w = ['L', 'D', 'S', 'T'] then some .ldst
  else if w = ['S', 'T', 'S', 'T'] then some .stst
  else if w = ['P', 'E', 'R', 'M', 'U', 'T', 'E'] then some .permute
  else if w = ['T', 'H', 'E', 'T', 'A'] then some .theta
  else if w = ['R', 'H', 'O'] then some .rho
  else if w = ['P', 'I'] then some .pi
  else if w = ['C', 'H', 'I'] then some .chi
  else none

/-- The format I commands by their mnemonics (rules R74, R80); an index that does not fit the field `arg` is no
command (log 17). -/
def mnemonicI (w : List Char) (arg : Nat) : Option Instr :=
  if 256 ≤ arg then none
  else if w = ['R', 'O', 'U', 'N', 'D'] then some (.round arg)
  else if w = ['I', 'O', 'T', 'A'] then some (.iota arg)
  else none

/-- The register of a `wr` line. -/
def wrRegOf (w : List Char) : Option WrReg :=
  if w = ['S', 'R', 'C'] then some .src
  else if w = ['L', 'E', 'N'] then some .len
  else if w = ['D', 'S', 'T'] then some .dst
  else none

/-- The register of an `rd` line. -/
def rdRegOf (w : List Char) : Option RdReg :=
  if w = ['S', 'T', 'A', 'T', 'U', 'S'] then some .status
  else if w = ['S', 'R', 'C'] then some .src
  else if w = ['L', 'E', 'N'] then some .len
  else if w = ['D', 'S', 'T'] then some .dst
  else if w = ['E', 'C', 'M', 'D'] then some .ecmd
  else none

/-- A pseudo-instruction by its name and operands (rule R81).  DESIGN CHOICE, log 17: `ROUNDSTEPS i` with `i` above
255 is refused, as `cmd IOTA i` is by `mnemonicI`, since its last line has no command word. -/
def pseudoOf (name : List Char) (args : List Nat) : Option Pseudo :=
  match args with
  | [a] =>
    if name = ['A', 'B', 'S', 'O', 'R', 'B', 'A', 'T'] then some (.absorbAt a)
    else if name = ['S', 'Q', 'U', 'E', 'E', 'Z', 'E', 'T', 'O'] then some (.squeezeTo a)
    else if name = ['F', '1', '6', '0', '0'] then some (.f1600 a)
    else if name = ['R', 'O', 'U', 'N', 'D', 'S', 'T', 'E', 'P', 'S'] ∧ a < 256 then some (.roundSteps a)
    else none
  | [a, b] => if name = ['F', 'I', 'N', 'A', 'L', 'A', 'T'] then some (.finalAt a b) else none
  | [a, b, c] => if name = ['K', 'E', 'C', 'C', 'A', 'K', '2', '5', '6'] then some (.keccak256 a b c) else none
  | _ => none

/-- The lines that one line of text stands for: one line of rule R80, or the expansion of a pseudo-instruction of
rule R81; `none` if it is neither. -/
def assembleWords (ws : List (List Char)) : Option (List Line) :=
  match ws with
  | [['w', 'r'], r, v] =>
    match wrRegOf r, parseValue v with
    | some r, some v => some [.wr r v]
    | _, _ => none
  | [['c', 'm', 'd'], m] => (mnemonicZ m).map fun i => [.cmd i]
  | [['c', 'm', 'd'], m, i] => ((parseValue i).bind (mnemonicI m)).map fun i => [.cmd i]
  | [['r', 'd'], r] => (rdRegOf r).map fun r => [.rd r]
  | name :: args => ((args.mapM parseValue).bind (pseudoOf name)).map Pseudo.expand
  | [] => none

/-- The assembler for one line of text (rules R80, R81). -/
def assemble (text : List Char) : Option (List Line) := assembleWords (lineWords text)

end Sys2Proof.Machine
end

