-- ==== Sys2Proof/Safety.lean ====
section
/-! DEFINITION. What a safe state is: the invariants that every step keeps, and the words the claims use. -/

namespace Sys2Proof.Machine

/-- The lanes hold the state that the sponge reaches, from all lanes zero, by absorbing some full blocks. -/
def AbsorbedBlocks (A : Lanes) : Prop := ∃ bs : List Block, A = bs.foldl absorbBlock zeroLanes

/-- The lanes hold the final state of the digest of some message (rule R121). -/
def AbsorbedMessage (A : Lanes) : Prop := ∃ m : List Byte, A = absorbMessage m

/-- What PHASE says about the lanes (rules R22, R32): in ABSORBING they are zeroed lanes with zero or more full
blocks absorbed, in DONE they hold the digest of a message. -/
def State.SpongeInv (s : State) : Prop :=
  (s.phase = .absorbing → AbsorbedBlocks s.lanes) ∧ (s.phase = .done → AbsorbedMessage s.lanes)

/-- What ERR and ECMD record (rules R33, R38, R141, R144): ECMD is 0 while ERR is 0; else it is a word that raises
that error, and PHASE is still the phase in which it was refused. -/
def State.ErrorRecordInv (s : State) : Prop :=
  match s.err with
  | .noError => s.ecmd = 0#32
  | .illegal => ∃ e, decode s.ecmd = .error e
  | .arg => ∃ i, decode s.ecmd = .ok i ∧ (i = .final ∨ ∃ r, 24 ≤ r ∧ (i = .round r ∨ i = .iota r))
  | .seq => ∃ i, decode s.ecmd = .ok i ∧ allowed i s.phase = false
  | .bus =>
    ∃ i, decode s.ecmd = .ok i ∧
      (i = .absorb ∨ i = .final ∨ i = .squeeze ∨ i = .hash ∨ i = .ldst ∨ i = .stst)

/-- The operand registers are `AW` bits wide (rules R29, R35 to R37). -/
def State.OperandsInv (s : State) : Prop :=
  s.src < 2 ^ s.platform.aw ∧ s.len < 2 ^ s.platform.aw ∧ s.dst < 2 ^ s.platform.aw

/-- Memory is in its canonical form and lists addresses of the address space only (rule R50). -/
def State.MemoryInv (s : State) : Prop :=
  s.mem.wf = true ∧ ∀ c ∈ s.mem, c.1 < 2 ^ s.platform.aw

/-- The invariant of the machine. -/
def State.Inv (s : State) : Prop :=
  s.MemoryInv ∧ s.OperandsInv ∧ s.ErrorRecordInv ∧ s.SpongeInv

/-- A range is admitted (rule R58), in words: it is empty, or it lies below `2^AW` and the platform admits each of
its bytes. -/
def Admitted (p : Platform) (base n : Nat) (k : AccessKind) : Prop :=
  n = 0 ∨ (base + n ≤ 2 ^ p.aw ∧ ∀ a, base ≤ a → a < base + n → memOK p a k = true)

/-- The phases a command is allowed in, as the table of rule R78 lists them. -/
def allowedPhases : Instr → List Phase
  | .nop => [.idle, .absorbing, .done]
  | .init => [.idle, .absorbing, .done]
  | .absorb => [.absorbing]
  | .final => [.absorbing]
  | .squeeze => [.done]
  | .hash => [.idle, .absorbing, .done]
  | .ldst => [.idle]
  | .stst => [.idle]
  | .permute => [.idle]
  | .round _ => [.idle]
  | .theta => [.idle]
  | .rho => [.idle]
  | .pi => [.idle]
  | .chi => [.idle]
  | .iota _ => [.idle]

/-- The phase after a successful command issued in the phase `p`, as the table of rule R78 lists it. -/
def phaseAfter (p : Phase) : Instr → Phase
  | .nop => p
  | .init => .absorbing
  | .absorb => .absorbing
  | .final => .done
  | .squeeze => .idle
  | .hash => .idle
  | .ldst => .idle
  | .stst => .idle
  | .permute => .idle
  | .round _ => .idle
  | .theta => .idle
  | .rho => .idle
  | .pi => .idle
  | .chi => .idle
  | .iota _ => .idle

/-- The argument of the command is out of range (rule R79). -/
def ArgError (i : Instr) (len : Nat) : Prop :=
  (∃ r, (i = .round r ∨ i = .iota r) ∧ 24 ≤ r) ∨ (i = .final ∧ 136 ≤ len)

/-- A range of the command fails (rules R51, R58). -/
def BusError (i : Instr) (s : State) : Prop :=
  (i = .absorb ∧ ¬ Admitted s.platform s.src 136 .read) ∨
  (i = .final ∧ ¬ Admitted s.platform s.src s.len .read) ∨
  (i = .squeeze ∧ ¬ Admitted s.platform s.dst 32 .write) ∨
  (i = .hash ∧ (¬ Admitted s.platform s.src s.len .read ∨ ¬ Admitted s.platform s.dst 32 .write)) ∨
  (i = .ldst ∧ ¬ Admitted s.platform s.src 200 .read) ∨
  (i = .stst ∧ ¬ Admitted s.platform s.dst 200 .write)

/-- A word is no command, by the fields of rule R77: `zero` is not 0, or `op` is none of the fifteen, or `op` is
format Z and `arg` is not 0. -/
def IllegalWord (w : CmdWord) : Prop :=
  zeroField w ≠ 0#16 ∨
  opField w ∉ [0x00#8, 0x01#8, 0x02#8, 0x03#8, 0x04#8, 0x05#8, 0x08#8, 0x09#8, 0x10#8, 0x11#8, 0x18#8, 0x19#8,
    0x1A#8, 0x1B#8, 0x1C#8] ∨
  (opField w ≠ 0x11#8 ∧ opField w ≠ 0x1C#8 ∧ argField w ≠ 0#8)

/-- The length of the input range `[SRC, SRC + n)` of a command, the column "reads" of the table of rule R51; 0 for a
command that reads nothing. -/
def inputLength (i : Instr) (s : State) : Nat :=
  match i with
  | .absorb => 136
  | .final => s.len
  | .hash => s.len
  | .ldst => 200
  | .nop => 0
  | .init => 0
  | .squeeze => 0
  | .stst => 0
  | .permute => 0
  | .round _ => 0
  | .theta => 0
  | .rho => 0
  | .pi => 0
  | .chi => 0
  | .iota _ => 0

/-- The length of the output range `[DST, DST + m)` of a command, the column "writes" of the table of rule R51; 0 for a
command that writes nothing. -/
def outputLength (i : Instr) : Nat :=
  match i with
  | .squeeze => 32
  | .hash => 32
  | .stst => 200
  | .nop => 0
  | .init => 0
  | .absorb => 0
  | .final => 0
  | .ldst => 0
  | .permute => 0
  | .round _ => 0
  | .theta => 0
  | .rho => 0
  | .pi => 0
  | .chi => 0
  | .iota _ => 0

/-- `k` steps of the machine, stopping at the first fault or refusal. -/
def runSteps (k : Nat) (s : State) : Host.Outcome State Fault Refusal := Host.Core.run Sys2Proof.core k s

end Sys2Proof.Machine
end

