-- ==== Sys2Proof/Certificates/Slice0/Obligations.lean ====
section
/-! DEFINITION. The statements about the machine, each with the rule of the spec it formalises. -/

open Sys2Proof Sys2Proof.Machine

/-! ### Encoding, decoding and dispatch -/

/-- Decoding and encoding are inverse to each other: a word is decoded to `i` exactly when `i` is well formed and
`w` is its command word (rules R71, R72, R74, R75). -/
def Obligations.DecodeInvertsEncode : Prop :=
  ∀ (w : CmdWord) (i : Instr), decode w = .ok i ↔ i.wf = true ∧ encode i = w

/-- The fifteen rows of the table of rule R74, one word of each written out bit by bit as `zero`, `arg` and `op`, decode
to their commands and are what those encode to. -/
def Obligations.TableWordsDecode : Prop :=
  let row (w : CmdWord) (i : Instr) : Prop := decode w = .ok i ∧ encode i = w
  row 0b0000000000000000_00000000_00000000#32 .nop ∧
  row 0b0000000000000000_00000000_00000001#32 .init ∧
  row 0b0000000000000000_00000000_00000010#32 .absorb ∧
  row 0b0000000000000000_00000000_00000011#32 .final ∧
  row 0b0000000000000000_00000000_00000100#32 .squeeze ∧
  row 0b0000000000000000_00000000_00000101#32 .hash ∧
  row 0b0000000000000000_00000000_00001000#32 .ldst ∧
  row 0b0000000000000000_00000000_00001001#32 .stst ∧
  row 0b0000000000000000_00000000_00010000#32 .permute ∧
  row 0b0000000000000000_00010111_00010001#32 (.round 23) ∧
  row 0b0000000000000000_00000000_00011000#32 .theta ∧
  row 0b0000000000000000_00000000_00011001#32 .rho ∧
  row 0b0000000000000000_00000000_00011010#32 .pi ∧
  row 0b0000000000000000_00000000_00011011#32 .chi ∧
  row 0b0000000000000000_00011000_00011100#32 (.iota 24)

/-- Rule R77: every word that no row matches raises ERR_ILLEGAL, and every other word is a command. -/
def Obligations.IllegalEncodingsRaise : Prop :=
  ∀ (s : State) (v : Nat), s.err = .noError →
    let w : CmdWord := BitVec.ofNat 32 v
    (IllegalWord w → hostWrite 0#3 v s = .next { s with err := .illegal, ecmd := w }) ∧
    (¬ IllegalWord w → ∃ i, decode w = .ok i ∧ hostWrite 0#3 v s = exec i s)

/-- A step whose next port access writes to CMD a word that decodes to `i` is `exec i` in the state in which the
host's queue has moved past that access (rules R28, R30, R76; the queue is the model's, log 1). -/
def Obligations.StepRunsDecodedCommand : Prop :=
  ∀ (s : State) (v : Nat) (rest : List HostOp) (i : Instr),
    s.pending = .write 0#3 v :: rest → decode (BitVec.ofNat 32 v) = .ok i →
    step s = exec i { s with pending := rest }

/-- Rules R76 and R143: the checks in their order, stopping at the first that fails; a command that passes all of
them raises nothing. -/
def Obligations.DispatchChecksInOrder : Prop :=
  ∀ (s : State) (w : CmdWord),
    (s.err ≠ .noError → issue w s = .next s) ∧
    (s.err = .noError →
      (∀ e, decode w = .error e → issue w s = .next { s with err := .illegal, ecmd := w }) ∧
      ∀ i, decode w = .ok i →
        (ArgError i s.len → issue w s = .next { s with err := .arg, ecmd := w }) ∧
        (¬ ArgError i s.len → s.phase ∉ allowedPhases i →
          issue w s = .next { s with err := .seq, ecmd := w }) ∧
        (¬ ArgError i s.len → s.phase ∈ allowedPhases i → BusError i s →
          issue w s = .next { s with err := .bus, ecmd := w }) ∧
        (¬ ArgError i s.len → s.phase ∈ allowedPhases i → ¬ BusError i s →
          ∃ t, issue w s = .next t ∧ exec i s = .next t ∧ t.err = .noError ∧ t.ecmd = s.ecmd))

/-- Rule R79: ERR_ARG is raised exactly for ROUND and IOTA with `arg >= 24` and FINAL with `LEN >= 136`. -/
def Obligations.ArgumentErrorsExactly : Prop :=
  ∀ (i : Instr) (s t : State), s.err = .noError → exec i s = .next t →
    (t.err = .arg ↔ (∃ r, (i = .round r ∨ i = .iota r) ∧ 24 ≤ r) ∨ (i = .final ∧ 136 ≤ s.len))

/-- Rule R78: the phases each command is allowed in, ERR_SEQ in every other phase, and the phase afterwards. -/
def Obligations.PhaseLegalityTable : Prop :=
  ∀ (i : Instr) (s t : State), s.err = .noError → ¬ ArgError i s.len → exec i s = .next t →
    (t.err = .seq ↔ s.phase ∉ allowedPhases i) ∧
    (t.err = .noError → s.phase ∈ allowedPhases i ∧ t.phase = phaseAfter s.phase i)

/-- Rule R58, with the ranges of rule R51: ERR_BUS exactly when a range of the command passes `2^AW` or has a byte
that the platform refuses; the command then has no effect but the error entry; an empty range always passes. -/
def Obligations.RangeAdmission : Prop :=
  ∀ (i : Instr) (s t : State), s.err = .noError → ¬ ArgError i s.len → s.phase ∈ allowedPhases i →
    exec i s = .next t →
    (t.err = .bus ↔
      (i = .absorb ∧ ¬ Admitted s.platform s.src 136 .read) ∨
      (i = .final ∧ ¬ Admitted s.platform s.src s.len .read) ∨
      (i = .squeeze ∧ ¬ Admitted s.platform s.dst 32 .write) ∨
      (i = .hash ∧ (¬ Admitted s.platform s.src s.len .read ∨ ¬ Admitted s.platform s.dst 32 .write)) ∨
      (i = .ldst ∧ ¬ Admitted s.platform s.src 200 .read) ∨
      (i = .stst ∧ ¬ Admitted s.platform s.dst 200 .write)) ∧
    (t.err = .bus → t = { s with err := .bus, ecmd := encode i })

/-! ### Errors -/

/-- Rule R144: raising an error for the word `w` writes ERR and ECMD and nothing else, and the host then reads an
ERR field (bits 7:4) of STATUS that is not 0. -/
def Obligations.ErrorEntryWritesErrAndEcmdOnly : Prop :=
  ∀ (s t : State) (w : CmdWord), s.err = .noError → issue w s = .next t → t.err ≠ .noError →
    t = { s with err := t.err, ecmd := w } ∧ hostRead 1#3 t / 16 % 16 ≠ 0

/-- Rule R145: while ERR is set a write to CMD does nothing, and so does every command; register reads, and writes to
SRC, LEN and DST, still work.  That a read's value goes to the list `replies` is the model's choice (log 1). -/
def Obligations.RefusalWhileInError : Prop :=
  ∀ (s : State) (v : Nat) (n : RegNum), s.err ≠ .noError →
    hostWrite 0#3 v s = .next s ∧ (∀ i, exec i s = .next s) ∧
    hostWrite 2#3 v s = .next { s with src := v % 2 ^ s.platform.aw } ∧
    hostWrite 3#3 v s = .next { s with len := v % 2 ^ s.platform.aw } ∧
    hostWrite 4#3 v s = .next { s with dst := v % 2 ^ s.platform.aw } ∧
    perform (.read n) s = .next { s with replies := s.replies ++ [hostRead n s] } ∧
    hostRead 1#3 s = (statusWord s).toNat ∧ hostRead 2#3 s = s.src ∧ hostRead 3#3 s = s.len ∧
    hostRead 4#3 s = s.dst ∧ hostRead 5#3 s = s.ecmd.toNat

/-- Rule R146: once ERR is set, no step but a reset changes ERR, ECMD, the lanes or PHASE, or the memory by anything
but the host's own store, so ERR and ECMD name the first error; a reset clears them, and also the lanes, PHASE and
the operand registers. -/
def Obligations.OnlyResetClearsTheError : Prop :=
  ∀ (s t : State), s.err ≠ .noError → step s = .next t →
    ((∀ w, s.pending.head? ≠ some (.resetDuring w)) → s.pending.head? ≠ some .reset →
      t.err = s.err ∧ t.ecmd = s.ecmd ∧ t.lanes = s.lanes ∧ t.phase = s.phase ∧
      ((∀ a v, s.pending.head? ≠ some (.memWrite a v)) → t.mem = s.mem)) ∧
    (s.pending.head? = some .reset ∨ (∃ w, s.pending.head? = some (.resetDuring w)) →
      t.err = .noError ∧ t.ecmd = 0#32 ∧ (∀ i : Fin 25, t.lanes[i] = 0#64) ∧ t.phase = .idle ∧ t.src = 0 ∧
      t.len = 0 ∧ t.dst = 0)

/-! ### Frames -/

/-- No command writes SRC, LEN, DST, the platform's parameters or the host's side; and it either leaves ERR and
ECMD as they are or does nothing but the error entry with its own word (rules R38, R138, R144). -/
def Obligations.CommandFrame : Prop :=
  ∀ (i : Instr) (s t : State), exec i s = .next t →
    t.src = s.src ∧ t.len = s.len ∧ t.dst = s.dst ∧ t.platform = s.platform ∧ t.pending = s.pending ∧
    t.replies = s.replies ∧ t.draws = s.draws ∧
    ((t.err = s.err ∧ t.ecmd = s.ecmd) ∨
      (s.err = .noError ∧ t = { s with err := t.err, ecmd := encode i }))

/-- Every byte of memory keeps its value, but for the bytes the command stores to: 32 from DST for SQUEEZE and
HASH, 200 from DST for STST; the other twelve commands store nothing (rule R51). -/
def Obligations.CommandsWriteOnlyTheOutputRange : Prop :=
  ∀ (i : Instr) (s t : State), s.mem.wf = true → exec i s = .next t →
    ((i = .squeeze ∨ i = .hash) → ∀ a, (a < s.dst ∨ s.dst + 32 ≤ a) → t.mem.read a = s.mem.read a) ∧
    (i = .stst → ∀ a, (a < s.dst ∨ s.dst + 200 ≤ a) → t.mem.read a = s.mem.read a) ∧
    ((i ≠ .squeeze ∧ i ≠ .hash ∧ i ≠ .stst) → ∀ a, t.mem.read a = s.mem.read a)

/-- The lanes and PHASE a command leaves unchanged: NOP, SQUEEZE and STST change no lane, IOTA none but lane 0; the
raw commands, ABSORB and NOP do not change PHASE (rules R22, R78, R94, R119, R131, R132). -/
def Obligations.LanesAndPhaseFrame : Prop :=
  ∀ (i : Instr) (s t : State), exec i s = .next t →
    ((i = .nop ∨ i = .squeeze ∨ i = .stst) → t.lanes = s.lanes) ∧
    (∀ r, i = .iota r → ∀ k : Fin 25, k.val ≠ 0 → t.lanes[k] = s.lanes[k]) ∧
    ((i ≠ .init ∧ i ≠ .final ∧ i ≠ .squeeze ∧ i ≠ .hash) → t.phase = s.phase)

/-- The list of writers of the lanes (rule R22): a step that changes a lane is a reset or a write to CMD of one of
the commands INIT, HASH, ABSORB, FINAL, LDST, THETA, RHO, PI, CHI, IOTA, ROUND, PERMUTE. -/
def Obligations.LanesChangeOnlyByTheirWriters : Prop :=
  ∀ (s t : State), step s = .next t → t.lanes ≠ s.lanes →
    s.pending.head? = some .reset ∨ (∃ w, s.pending.head? = some (.resetDuring w)) ∨
    ∃ v i, s.pending.head? = some (.write 0#3 v) ∧ decode (BitVec.ofNat 32 v) = .ok i ∧
      i ≠ .nop ∧ i ≠ .squeeze ∧ i ≠ .stst

/-- PHASE is written only by reset and by INIT, FINAL, SQUEEZE and HASH; and DONE is reached only by FINAL
(rule R32). -/
def Obligations.PhaseChangesOnlyBySpongeCommands : Prop :=
  ∀ (s t : State), step s = .next t → t.phase ≠ s.phase →
    (t.phase = .idle ∧ (s.pending.head? = some .reset ∨ ∃ w, s.pending.head? = some (.resetDuring w))) ∨
    ∃ v i, s.pending.head? = some (.write 0#3 v) ∧ decode (BitVec.ofNat 32 v) = .ok i ∧
      ((i = .init ∧ t.phase = .absorbing) ∨ (i = .final ∧ t.phase = .done) ∨
        ((i = .squeeze ∨ i = .hash) ∧ t.phase = .idle))

/-! ### The step mappings, the round and the permutation -/

/-- THETA (rule R90): `A'[i] = A[i] ^ D[x]` with `D[x] = C[x-1] ^ rotl64(C[x+1], 1)`, every `C` taken from the state
before the step; nothing else changes. -/
def Obligations.ThetaCompletes : Prop :=
  ∀ s : State, s.err = .noError → s.phase = .idle →
    let C : Fin 5 → Lane := fun x =>
      s.lanes[pos x 0] ^^^ s.lanes[pos x 1] ^^^ s.lanes[pos x 2] ^^^ s.lanes[pos x 3] ^^^ s.lanes[pos x 4]
    encode .theta = 0x00000018#32 ∧
    ∃ A : Lanes, exec .theta s = .next { s with lanes := A } ∧
      ∀ x y : Fin 5, A[pos x y] = s.lanes[pos x y] ^^^ (C (x + 4) ^^^ rotl64 (C (x + 1)) 1)

/-- RHO (rules R25, R91): each lane rotated left by the offset of its position; lane 0 untouched. -/
def Obligations.RhoCompletes : Prop :=
  ∀ s : State, s.err = .noError → s.phase = .idle →
    encode .rho = 0x00000019#32 ∧
    ∃ A : Lanes, exec .rho s = .next { s with lanes := A } ∧
      ∀ i : Fin 25, A[i] = rotl64 s.lanes[i]
        ([0, 1, 62, 28, 27, 36, 44, 6, 55, 20, 3, 10, 43, 25, 39, 41, 45, 15, 21, 8, 18, 2, 61, 56, 14].getD i.val 0)

/-- PI (rules R26, R92): the lane at column `x`, row `y` moves to column `y`, row `(2x + 3y) mod 5`. -/
def Obligations.PiCompletes : Prop :=
  ∀ s : State, s.err = .noError → s.phase = .idle →
    encode .pi = 0x0000001A#32 ∧
    ∃ A : Lanes, exec .pi s = .next { s with lanes := A } ∧
      ∀ x y : Fin 5, A[pos y (2 * x + 3 * y)] = s.lanes[pos x y]

/-- CHI (rule R93): `A'[5y+x] = A[5y+x] ^ (~A[5y + (x+1) mod 5] & A[5y + (x+2) mod 5])`, all right-hand sides from
the state before the step. -/
def Obligations.ChiCompletes : Prop :=
  ∀ s : State, s.err = .noError → s.phase = .idle →
    encode .chi = 0x0000001B#32 ∧
    ∃ A : Lanes, exec .chi s = .next { s with lanes := A } ∧
      ∀ x y : Fin 5,
        A[pos x y] = s.lanes[pos x y] ^^^ (~~~ s.lanes[pos (x + 1) y] &&& s.lanes[pos (x + 2) y])

/-- IOTA (rules R24, R94): the round constant of `arg` XORed into lane 0 only; ERR_ARG, and nothing else, for
`arg >= 24`. -/
def Obligations.IotaCompletes : Prop :=
  ∀ (s : State) (r : Nat), s.err = .noError →
    (r < 24 → s.phase = .idle →
      (encode (.iota r)).toNat = 0x1C + 256 * r ∧
      ∃ A : Lanes, exec (.iota r) s = .next { s with lanes := A } ∧
        A[0] = s.lanes[0] ^^^
          ([0x0000000000000001#64, 0x0000000000008082#64, 0x800000000000808A#64, 0x8000000080008000#64,
            0x000000000000808B#64, 0x0000000080000001#64, 0x8000000080008081#64, 0x8000000000008009#64,
            0x000000000000008A#64, 0x0000000000000088#64, 0x0000000080008009#64, 0x000000008000000A#64,
            0x000000008000808B#64, 0x800000000000008B#64, 0x8000000000008089#64, 0x8000000000008003#64,
            0x8000000000008002#64, 0x8000000000000080#64, 0x000000000000800A#64, 0x800000008000000A#64,
            0x8000000080008081#64, 0x8000000000008080#64, 0x0000000080000001#64, 0x8000000080008008#64].getD r 0#64) ∧
        ∀ i : Fin 25, i.val ≠ 0 → A[i] = s.lanes[i]) ∧
    (24 ≤ r → exec (.iota r) s = .next { s with err := .arg, ecmd := encode (.iota r) })

/-- ROUND (rules R100, R101): completes for every round index below 24, in any order, with the effect of the five
commands THETA, RHO, PI, CHI, IOTA in that order; only the lanes change. -/
def Obligations.RoundIsTheFiveSteps : Prop :=
  ∀ (s : State) (r : Nat), s.err = .noError → s.phase = .idle → r < 24 →
    ∃ a b c d e : State, exec .theta s = .next a ∧ exec .rho a = .next b ∧ exec .pi b = .next c ∧
      exec .chi c = .next d ∧ exec (.iota r) d = .next e ∧ exec (.round r) s = .next e ∧
      e = { s with lanes := e.lanes }

/-- PERMUTE (rules R102, R103): completes with the effect of ROUND 0, ROUND 1, …, ROUND 23; only the lanes change. -/
def Obligations.PermuteIsTheTwentyFourRounds : Prop :=
  ∀ s : State, s.err = .noError → s.phase = .idle →
    ∃ σ : Nat → State, σ 0 = s ∧ (∀ r, r < 24 → exec (.round r) (σ r) = .next (σ (r + 1))) ∧
      exec .permute s = .next (σ 24) ∧ σ 24 = { s with lanes := (σ 24).lanes }

/-- "Each is a bijection on the 1600-bit states" (rule R95): the five step mappings, and the round for every index
(rule R100). -/
def Obligations.StepMappingsBijective : Prop :=
  Function.Bijective theta ∧ Function.Bijective rho ∧ Function.Bijective piStep ∧ Function.Bijective chi ∧
  (∀ r, Function.Bijective fun A => iota A r) ∧ ∀ r, Function.Bijective fun A => keccakRound A r

/-- "The permutation is a bijection on the 1600-bit space" (rule R104), said of the command: two idle states that
PERMUTE takes to the same lanes had the same lanes, and every lanes are reached. -/
def Obligations.PermuteLosesNoInformation : Prop :=
  ∀ s : State, s.err = .noError → s.phase = .idle →
    (∀ (B : Lanes) (t u : State), exec .permute s = .next t → exec .permute { s with lanes := B } = .next u →
      t.lanes = u.lanes → B = s.lanes) ∧
    ∀ A : Lanes, ∃ B : Lanes, exec .permute { s with lanes := B } = .next { s with lanes := A }

/-- The first four step mappings take the all-zero state to itself, and IOTA is its own inverse (rules R94, R96). -/
def Obligations.ZeroStateAndIotaTwice : Prop :=
  theta zeroLanes = zeroLanes ∧ rho zeroLanes = zeroLanes ∧ piStep zeroLanes = zeroLanes ∧
  chi zeroLanes = zeroLanes ∧ ∀ (A : Lanes) (r : Nat), iota (iota A r) r = A

/-- `rotl64` as rule R11 defines it, by value and by bit. -/
def Obligations.RotateLeftValueAndBits : Prop :=
  ∀ (a : Lane) (n : Nat), n ≤ 63 →
    rotl64 a 0 = a ∧
    (n ≠ 0 → (rotl64 a n).toNat = a.toNat * 2 ^ n % 2 ^ 64 + a.toNat / 2 ^ (64 - n)) ∧
    ∀ k, k < 64 → (rotl64 a n).getLsbD ((k + n) % 64) = a.getLsbD k

/-! ### The sponge wrapper -/

/-- INIT (rule R111): every lane 0, PHASE ABSORBING, in every phase, with no memory access; nothing else changes. -/
def Obligations.InitCompletes : Prop :=
  ∀ s : State, s.err = .noError →
    encode .init = 0x00000001#32 ∧ accesses .init s = [] ∧
    ∃ A : Lanes, exec .init s = .next { s with lanes := A, phase := .absorbing } ∧ ∀ i : Fin 25, A[i] = 0#64

/-- ABSORB (rules R112, R113): byte `8k + j` of the block at SRC is XORed into byte `j` of lane `k` for `k` up to 16,
the capacity lanes are left, and the permutation follows; only the lanes change. -/
def Obligations.AbsorbCompletes : Prop :=
  ∀ s : State, s.err = .noError → s.phase = .absorbing → Admitted s.platform s.src 136 .read →
    ∃ B : Lanes, exec .absorb s = .next { s with lanes := keccakF B } ∧
      (∀ (k : Fin 25) (j : Fin 8), k.val < 17 →
        laneByte B[k] j.val = laneByte s.lanes[k] j.val ^^^ s.mem.read (s.src + 8 * k.val + j.val)) ∧
      ∀ k : Fin 25, 17 ≤ k.val → B[k] = s.lanes[k]

/-- FINAL (rules R115, R116): the `LEN` bytes at SRC, with `0x01` OR-ed into byte `LEN` and `0x80` into byte 135 of
the zero-filled block, are XORed into the first 17 lanes; the permutation follows, and PHASE is DONE. -/
def Obligations.FinalCompletes : Prop :=
  ∀ s : State, s.err = .noError → s.phase = .absorbing → s.len < 136 → Admitted s.platform s.src s.len .read →
    ∃ B : Lanes, exec .final s = .next { s with lanes := keccakF B, phase := .done } ∧
      (∀ (k : Fin 25) (j : Fin 8), k.val < 17 →
        let n := 8 * k.val + j.val
        laneByte B[k] j.val = laneByte s.lanes[k] j.val ^^^
          ((if n < s.len then s.mem.read (s.src + n) else 0x00#8) ||| (if n = s.len then 0x01#8 else 0x00#8) |||
            (if n = 135 then 0x80#8 else 0x00#8))) ∧
      ∀ k : Fin 25, 17 ≤ k.val → B[k] = s.lanes[k]

/-- The empty tail (rule R117).  FINAL with `LEN = 0` reads no memory, whatever SRC and the platform are, and flips
bit 0 of lane 0 and bit 63 of lane 16 before the one permutation; and every message whose length is a multiple of 136
ends with that padded block, once. -/
def Obligations.EmptyTailFlipsTwoBits : Prop :=
  (∀ s : State, s.err = .noError → s.phase = .absorbing → s.len = 0 →
    accesses .final s = [] ∧
    ∃ B : Lanes, exec .final s = .next { s with lanes := keccakF B, phase := .done } ∧
      B[0] = s.lanes[0] ^^^ 0x0000000000000001#64 ∧ B[16] = s.lanes[16] ^^^ 0x8000000000000000#64 ∧
      ∀ k : Fin 25, k.val ≠ 0 → k.val ≠ 16 → B[k] = s.lanes[k]) ∧
  ∀ m : List Byte, m.length % 136 = 0 → paddedBlocks m = fullBlocks m ++ [padBlock []]

/-- Rule R116: the padded block of a tail of `r` bytes, byte by byte. -/
def Obligations.PaddedBlockBytes : Prop :=
  ∀ t : List Byte, t.length ≤ 135 →
    (∀ j : Fin 136, j.val < t.length → (padBlock t)[j] = t.getD j.val 0x00#8) ∧
    (t.length = 135 → (padBlock t)[135] = 0x81#8) ∧
    (t.length < 135 →
      (∀ j : Fin 136, j.val = t.length → (padBlock t)[j] = 0x01#8) ∧
      (∀ j : Fin 136, t.length < j.val → j.val < 135 → (padBlock t)[j] = 0x00#8) ∧
      (padBlock t)[135] = 0x80#8)

/-- SQUEEZE (rule R119): the 32 bytes from DST are lanes 0 to 3, little-endian; PHASE is IDLE; the lanes and all else
are unchanged. -/
def Obligations.SqueezeCompletes : Prop :=
  ∀ s : State, s.mem.wf = true → s.err = .noError → s.phase = .done → Admitted s.platform s.dst 32 .write →
    ∃ m : Memory, exec .squeeze s = .next { s with mem := m, phase := .idle } ∧
      (∀ (k : Fin 25) (j : Fin 8), k.val < 4 → m.read (s.dst + 8 * k.val + j.val) = laneByte s.lanes[k] j.val) ∧
      ∀ a, (a < s.dst ∨ s.dst + 32 ≤ a) → m.read a = s.mem.read a

/-- HASH (rules R57, R120, R121): with `m` the `LEN` bytes at SRC as they are when the command is issued, `Keccak256(m)`
is written to DST, in every phase and also where the two ranges overlap; the lanes hold the final state, PHASE is
IDLE, and all else is unchanged. -/
def Obligations.HashCompletes : Prop :=
  ∀ s : State, s.mem.wf = true → s.err = .noError → Admitted s.platform s.src s.len .read →
    Admitted s.platform s.dst 32 .write →
    ∃ (msg : List Byte) (m : Memory),
      (msg.length = s.len ∧ ∀ k, k < s.len → msg.getD k 0#8 = s.mem.read (s.src + k)) ∧
      exec .hash s = .next { s with lanes := absorbMessage msg, mem := m, phase := .idle } ∧
      (∀ n, n < 32 → m.read (s.dst + n) = (keccak256 msg).getD n 0#8) ∧
      ∀ a, (a < s.dst ∨ s.dst + 32 ≤ a) → m.read a = s.mem.read a

/-- The absorb loop of rules R114, R120 and R121.  A message made of the blocks `bs` and a tail `t` of fewer than 136
bytes is absorbed block by block, XOR then permutation, from the all-zero state, and then its padded tail; every message
is of this form, with `n div 136` blocks and a tail of `n mod 136` bytes.  The list of blocks that the loop absorbs
splits in the same way. -/
def Obligations.MessageIsAbsorbedBlockByBlock : Prop :=
  (∀ (bs : List Block) (t : List Byte), t.length < 136 →
    absorbMessage (bs.flatMap Vector.toList ++ t) =
      keccakF (xorBlock (bs.foldl (fun A bk => keccakF (xorBlock A bk)) zeroLanes) (padBlock t))) ∧
  (∀ m : List Byte, ∃ (bs : List Block) (t : List Byte), m = bs.flatMap Vector.toList ++ t ∧
    bs.length = m.length / 136 ∧ t.length = m.length % 136) ∧
  (∀ (b : Block) (m : List Byte), paddedBlocks (b.toList ++ m) = b :: paddedBlocks m) ∧
  ∀ m : List Byte, m.length < 136 → paddedBlocks m = [padBlock m]

/-- Rules R121 and R123: the digest is the first 32 bytes of a state that is reached from the all-zero state by one XOR
and one application of the permutation for each padded block, and a message of `n` bytes has `n div 136 + 1` of these
blocks.  Counting permutations by the blocks is the model's reading of the count of work (log 12). -/
def Obligations.DigestSizeAndPermutationCount : Prop :=
  ∀ m : List Byte,
    absorbMessage m = (paddedBlocks m).foldl (fun A bk => keccakF (xorBlock A bk)) zeroLanes ∧
    (paddedBlocks m).length = m.length / 136 + 1 ∧
    keccak256 m = digest (absorbMessage m) ∧ (keccak256 m).length = 32

/-- HASH equals the primitive commands (rule R122): from the same state, with every range admitted, the script INIT,
ABSORB for each full block, FINAL of the tail, SQUEEZE runs to its end and leaves the lanes, the memory and PHASE that
HASH leaves.  That the script stands in the queue `pending`, one access a step, is the model's choice (log 1); for a
message that ends exactly at `2^AW` the script's last `wr SRC` stores 0 and FINAL reads the empty range there (log 16). -/
def Obligations.HashEqualsPrimitiveCommands : Prop :=
  ∀ (s : State) (rest : List HostOp), s.err = .noError → s.OperandsInv →
    Admitted s.platform s.src s.len .read → Admitted s.platform s.dst 32 .write →
    let ops := scriptOps (primitiveHash s.src s.len s.dst)
    ∃ t u : State, exec .hash s = .next t ∧
      runSteps ops.length { s with pending := ops ++ rest } = .next u ∧
      u.lanes = t.lanes ∧ u.mem = t.mem ∧ u.phase = t.phase ∧ u.err = .noError ∧ u.pending = rest

/-- The pseudo-instruction KECCAK256 (rule R81): its four lines run, and the 32 bytes at `d` are then `Keccak256` of the
`n` bytes at `p`.  The queue the lines stand in is the model's choice (log 1). -/
def Obligations.Keccak256ScriptWritesTheDigest : Prop :=
  ∀ (s : State) (p n d : Nat) (rest : List HostOp), s.mem.wf = true → s.err = .noError →
    p < 2 ^ s.platform.aw → n < 2 ^ s.platform.aw → d < 2 ^ s.platform.aw →
    Admitted s.platform p n .read → Admitted s.platform d 32 .write →
    ∃ u : State, runSteps 4 { s with pending := scriptOps (Pseudo.keccak256 p n d).expand ++ rest } = .next u ∧
      u.src = p ∧ u.len = n ∧ u.dst = d ∧ u.err = .noError ∧ u.phase = .idle ∧ u.pending = rest ∧
      (∀ k, k < 32 → u.mem.read (d + k) = (keccak256 (s.mem.readBytes p n)).getD k 0#8) ∧
      ∀ a, (a < d ∨ d + 32 ≤ a) → u.mem.read a = s.mem.read a

/-- Determinism of the digest (rules R120, R121): two states that hold the same message, in any phase, with any lanes
and at any addresses, get the same 32 bytes from HASH. -/
def Obligations.DigestDependsOnTheMessageOnly : Prop :=
  ∀ s s' t t' : State, s.mem.wf = true → s'.mem.wf = true → s.err = .noError → s'.err = .noError →
    s.len = s'.len → (∀ k, k < s.len → s.mem.read (s.src + k) = s'.mem.read (s'.src + k)) →
    exec .hash s = .next t → exec .hash s' = .next t' → t.err = .noError → t'.err = .noError →
    t.lanes = t'.lanes ∧ ∀ n, n < 32 → t.mem.read (s.dst + n) = t'.mem.read (s'.dst + n)

/-- In a state that keeps the sponge invariant, SQUEEZE never delivers anything but a Keccak-256 digest: the 32 bytes
it writes are `Keccak256(m)` for some message `m` (rules R22, R32, R119; the invariant is kept by every step). -/
def Obligations.SqueezeDeliversADigest : Prop :=
  ∀ s : State, s.mem.wf = true → s.SpongeInv → s.err = .noError → s.phase = .done →
    Admitted s.platform s.dst 32 .write →
    ∃ (t : State) (m : List Byte), exec .squeeze s = .next t ∧
      ∀ n, n < 32 → t.mem.read (s.dst + n) = (keccak256 m).getD n 0#8

/-! ### State transfer and NOP -/

/-- LDST (rules R53, R130): byte `8i + j` at SRC becomes byte `j` of lane `i`; only the lanes change. -/
def Obligations.LdstCompletes : Prop :=
  ∀ s : State, s.err = .noError → s.phase = .idle → Admitted s.platform s.src 200 .read →
    ∃ A : Lanes, exec .ldst s = .next { s with lanes := A } ∧
      ∀ (i : Fin 25) (j : Fin 8), laneByte A[i] j.val = s.mem.read (s.src + 8 * i.val + j.val)

/-- STST (rules R53, R131): byte `j` of lane `i` is stored at `DST + 8i + j`; every other byte, and all else, is
unchanged. -/
def Obligations.StstCompletes : Prop :=
  ∀ s : State, s.mem.wf = true → s.err = .noError → s.phase = .idle → Admitted s.platform s.dst 200 .write →
    ∃ m : Memory, exec .stst s = .next { s with mem := m } ∧
      (∀ (i : Fin 25) (j : Fin 8), m.read (s.dst + 8 * i.val + j.val) = laneByte s.lanes[i] j.val) ∧
      ∀ a, (a < s.dst ∨ s.dst + 200 ≤ a) → m.read a = s.mem.read a

/-- "STST followed by LDST from the same address restores the same lanes" (rule R131), whatever the lanes became in
between. -/
def Obligations.StoreThenLoadRestoresTheState : Prop :=
  ∀ (s t : State) (B : Lanes), s.mem.wf = true → s.err = .noError → s.phase = .idle →
    Admitted s.platform s.dst 200 .write → Admitted s.platform s.dst 200 .read →
    exec .stst s = .next t →
    ∃ u : State, exec .ldst { t with lanes := B, src := s.dst } = .next u ∧ u.lanes = s.lanes

/-- NOP (rule R132): no effect in any phase, also while ERR is set; a word with `op = 0` and another field not 0 is
ERR_ILLEGAL. -/
def Obligations.NopHasNoEffect : Prop :=
  ∀ s : State, exec .nop s = .next s ∧ decode 0x00000000#32 = .ok .nop ∧
    ∀ w : CmdWord, opField w = 0#8 → w ≠ 0#32 → s.err = .noError →
      issue w s = .next { s with err := .illegal, ecmd := w }

/-- The raw permutation on a state in memory, the script `F1600 p` (rules R81, R133): the 200 bytes at `p` become the
image of the permuted state, and the lanes hold that state.  The spec marks the sentence of rule R133 as derived from
rules R130, R131 and R103; the queue the script stands in is the model's choice (log 1). -/
def Obligations.F1600ScriptPermutesInPlace : Prop :=
  ∀ (s : State) (p : Nat) (rest : List HostOp), s.mem.wf = true → s.err = .noError → s.phase = .idle →
    p < 2 ^ s.platform.aw → Admitted s.platform p 200 .read → Admitted s.platform p 200 .write →
    ∃ (A : Lanes) (u : State),
      runSteps 5 { s with pending := scriptOps (Pseudo.f1600 p).expand ++ rest } = .next u ∧
      (∀ (i : Fin 25) (j : Fin 8), laneByte A[i] j.val = s.mem.read (p + 8 * i.val + j.val)) ∧
      u.lanes = keccakF A ∧
      (∀ (i : Fin 25) (j : Fin 8), u.mem.read (p + 8 * i.val + j.val) = laneByte (keccakF A)[i] j.val) ∧
      (∀ a, (a < p ∨ p + 200 ≤ a) → u.mem.read a = s.mem.read a) ∧
      u.err = .noError ∧ u.phase = .idle ∧ u.pending = rest

/-! ### Memory accesses -/

/-- Rules R51, R56 and R57.  The accesses listed for a command are one read of each byte of `[SRC, SRC + n)` in ascending
order, then one write of each byte of `[DST, DST + m)` in ascending order, with the lengths of rule R51.  And the command
itself depends on memory only through the bytes at the read addresses, as they are before it writes any: in two states
with the same bytes there, and any others elsewhere, the output ranges too, it leaves the same lanes, registers and
error, and the same bytes in the output range if it raises no error.  It changes no byte outside the output range.  That
a command's accesses are an ordered list beside its one step is the model's reading (log 12). -/
def Obligations.ReadsPrecedeWrites : Prop :=
  ∀ (i : Instr) (s : State),
    accesses i s =
      (List.range (inputLength i s)).map (fun k => (.read, s.src + k)) ++
        (List.range (outputLength i)).map (fun k => (.write, s.dst + k)) ∧
    ∀ (m : Memory) (t : State), s.mem.wf = true → m.wf = true →
      (∀ k, k < inputLength i s → m.read (s.src + k) = s.mem.read (s.src + k)) → exec i s = .next t →
      ∃ m' : Memory, exec i { s with mem := m } = .next { t with mem := m' } ∧
        (t.err = .noError → ∀ k, k < outputLength i → m'.read (s.dst + k) = t.mem.read (s.dst + k)) ∧
        ∀ a, (a < s.dst ∨ s.dst + outputLength i ≤ a) → t.mem.read a = s.mem.read a ∧ m'.read a = m.read a

/-- Rule R136: the accesses of a command and what becomes of PHASE and ERR are functions of the command, PHASE, ERR,
SRC, LEN, DST and the platform alone: two states that agree on these, with any lanes and any memory, agree after the
command. -/
def Obligations.ControlDoesNotDependOnData : Prop :=
  ∀ (i : Instr) (s s' t t' : State), s.phase = s'.phase → s.err = s'.err → s.ecmd = s'.ecmd → s.src = s'.src →
    s.len = s'.len → s.dst = s'.dst → s.platform = s'.platform →
    exec i s = .next t → exec i s' = .next t' →
    t.phase = t'.phase ∧ t.err = t'.err ∧ t.ecmd = t'.ecmd ∧ accesses i s = accesses i s'

/-! ### The ports, reset and the machine as a whole -/

/-- Rule R31: the STATUS layout, the field of BUSY left out, and writes to it change nothing. -/
def Obligations.StatusLayout : Prop :=
  ∀ (s : State) (v : Nat),
    let w : BitVec 32 := BitVec.ofNat 32 (hostRead 1#3 s)
    w.extractLsb' 0 2 = (match s.phase with | .idle => 0#2 | .absorbing => 1#2 | .done => 2#2) ∧
    w.extractLsb' 2 2 = 0#2 ∧
    w.extractLsb' 4 4 =
      (match s.err with | .noError => 0#4 | .illegal => 1#4 | .arg => 2#4 | .seq => 3#4 | .bus => 4#4) ∧
    w.extractLsb' 9 23 = 0#23 ∧ hostRead 1#3 s < 2 ^ 32 ∧ hostWrite 1#3 v s = .next s

/-- Rule R39, with rules R30 and R35 to R38: the corner cases of the register port.  "Modulo 2 to the register's width"
is read as modulo 2 to the power of the width (log 6), and that a read's value goes to the list `replies` is the model's
choice (log 1). -/
def Obligations.RegisterPortCornerCases : Prop :=
  ∀ (s : State) (v : Nat) (n : RegNum),
    (hostWrite 1#3 v s = .next s ∧ hostWrite 5#3 v s = .next s ∧ hostWrite 6#3 v s = .next s ∧
      hostWrite 7#3 v s = .next s) ∧
    (hostRead 0#3 s = 0 ∧ hostRead 6#3 s = 0 ∧ hostRead 7#3 s = 0) ∧
    (∃ t, hostWrite 2#3 v s = .next t ∧ t = { s with src := v % 2 ^ s.platform.aw } ∧
      hostRead 2#3 t = v % 2 ^ s.platform.aw) ∧
    (∃ t, hostWrite 3#3 v s = .next t ∧ t = { s with len := v % 2 ^ s.platform.aw } ∧
      hostRead 3#3 t = v % 2 ^ s.platform.aw) ∧
    (∃ t, hostWrite 4#3 v s = .next t ∧ t = { s with dst := v % 2 ^ s.platform.aw } ∧
      hostRead 4#3 t = v % 2 ^ s.platform.aw) ∧
    hostWrite 0#3 v s = issue (BitVec.ofNat 32 v) s ∧
    hostRead 5#3 s = s.ecmd.toNat ∧
    perform (.read n) s = .next { s with replies := s.replies ++ [hostRead n s] }

/-- Rule R170: the state after reset. -/
def Obligations.ResetValues : Prop :=
  ∀ s : State, ∃ t, perform .reset s = .next t ∧ (∀ i : Fin 25, t.lanes[i] = 0#64) ∧ t.phase = .idle ∧
    t.err = .noError ∧ t.ecmd = 0#32 ∧ t.src = 0 ∧ t.len = 0 ∧ t.dst = 0 ∧ t.mem = s.mem ∧
    t.platform = s.platform

/-- Rule R171: a reset that arrives during the command `w` gives the registers and lanes their reset values; each byte
the command was to write is old or new, and every other byte is unchanged.  It holds for every value of the free
value `Config.resetLanded` and of the counter `draws` (log 8). -/
def Obligations.ResetDuringACommand : Prop :=
  ∀ (s : State) (w : CmdWord), s.mem.wf = true →
    ∃ done t : State, issue w s = .next done ∧ perform (.resetDuring w) s = .next t ∧
      (∀ i : Fin 25, t.lanes[i] = 0#64) ∧ t.phase = .idle ∧ t.err = .noError ∧ t.ecmd = 0#32 ∧ t.src = 0 ∧
      t.len = 0 ∧ t.dst = 0 ∧
      ∀ a, t.mem.read a = s.mem.read a ∨
        (t.mem.read a = done.mem.read a ∧ ∃ i, decode w = .ok i ∧ a ∈ writtenAddrs i s)

/-- The host's accesses to its memory (rules R59, R61): a stored byte is what a later read returns and no other byte
changes; the engine's state is not touched.  That they are not checked against `MemOK` is the model's reading (log 7),
and that a read's value goes to the list `replies` is its choice (log 1). -/
def Obligations.HostMemoryAccesses : Prop :=
  ∀ (s : State) (a : Nat) (v : Byte), s.mem.wf = true → a < 2 ^ s.platform.aw →
    (∃ m : Memory, perform (.memWrite a v) s = .next { s with mem := m } ∧ m.read a = v ∧
      ∀ b, b ≠ a → m.read b = s.mem.read b) ∧
    perform (.memRead a) s = .next { s with replies := s.replies ++ [(s.mem.read a).toNat] }

/-- "Between commands it is idle and keeps all its state" (rule R155), said of a step with no access of the host waiting;
the queue of accesses is the model's choice (log 1). -/
def Obligations.IdleEngineKeepsItsState : Prop :=
  ∀ s : State, s.pending = [] → step s = .next s

/-- The machine stops only where the host accesses an address that does not exist (rule R50, log 4): no command and no
register access ever ends in a fault or a refusal. -/
def Obligations.OnlyHostAddressesFault : Prop :=
  ∀ s : State,
    (∀ f, step s = .fault f ↔
      ∃ a, f = .noSuchAddress a ∧ 2 ^ s.platform.aw ≤ a ∧
        ((∃ v, s.pending.head? = some (.memWrite a v)) ∨ s.pending.head? = some (.memRead a))) ∧
    ∀ r, step s ≠ .refused r

/-- Every step keeps the invariant of the machine: memory canonical and inside the address space, the operand registers
below `2^AW`, ERR and ECMD a consistent record of the first error, and what PHASE says about the lanes. -/
def Obligations.StepKeepsTheInvariant : Prop :=
  ∀ s t : State, s.Inv → step s = .next t → t.Inv

/-- The invariant holds after reset (rules R42, R170; the empty memory of the reset state is log 3). -/
def Obligations.ResetSatisfiesTheInvariant : Prop := State.reset.Inv
end

