-- ==== Sys2Proof/Laws/Codec.lean ====
section
/-! SUPPORT. Small facts about the opcode table, the decoder and the encoder (rules R71, R74, R75). -/

namespace Sys2Proof

/-- The fields of an encoded command (rule R71). -/
@[simp] theorem zeroField_encode (i : Instr) : zeroField (encode i) = 0#16 := by
  apply BitVec.eq_of_getLsbD_eq
  intro k hk
  simp only [zeroField, encode, BitVec.getLsbD_extractLsb', BitVec.getLsbD_append]
  rw [if_neg (by omega), if_neg (by omega)]
  simp

@[simp] theorem argField_encode (i : Instr) : argField (encode i) = argOf i := by
  apply BitVec.eq_of_getLsbD_eq
  intro k hk
  simp only [argField, encode, BitVec.getLsbD_extractLsb', BitVec.getLsbD_append]
  rw [if_neg (by omega), if_pos (by omega)]
  simp [hk]

@[simp] theorem opField_encode (i : Instr) : opField (encode i) = opcode i := by
  apply BitVec.eq_of_getLsbD_eq
  intro k hk
  simp only [opField, encode, BitVec.getLsbD_extractLsb', BitVec.getLsbD_append]
  rw [if_pos (by omega)]
  simp [hk]

/-- "The rows' patterns are disjoint, so at most one matches" (rule R75): any two rows differ in a bit that both
fix. -/
theorem opcodeTable_disjoint :
    opcodeTable.Pairwise fun r r' => r.pattern &&& r'.mask ≠ r'.pattern &&& r.mask := by
  decide

/-- Each row's pattern lies inside its mask. -/
theorem opcodeTable_pattern_fixed : ∀ r ∈ opcodeTable, r.pattern &&& r.mask = r.pattern := by
  decide

/-- What it takes for a word to be decoded: a row of the table that it selects. -/
theorem decode_ok {w : CmdWord} {i : Instr} (h : decode w = .ok i) :
    ∃ row ∈ opcodeTable, row.selects w = true ∧ i = row.make (argField w) := by
  unfold decode at h
  split at h
  · rename_i row hrow
    cases h
    exact ⟨row, List.mem_of_find?_eq_some hrow, by simpa using List.find?_some hrow, rfl⟩
  · cases h

/-- A word is rejected exactly when it selects no row. -/
theorem decode_error_iff (w : CmdWord) :
    (∃ e, decode w = .error e) ↔ ∀ row ∈ opcodeTable, row.selects w = false := by
  unfold decode
  split
  · rename_i row hrow
    constructor
    · rintro ⟨e, he⟩
      cases he
    · intro h
      have := h row (List.mem_of_find?_eq_some hrow)
      simp [List.find?_some hrow] at this
  · rename_i hnone
    simpa using hnone

end Sys2Proof
end

