-- ==== Sys2Proof/Laws/State.lean ====
section
/-! SUPPORT. One lemma per field per update of the state, and the fields of the reset state. -/

namespace Sys2Proof.Machine

variable (s : State)

@[simp] theorem State.setLanes_lanes (A : Lanes) :
    (s.setLanes A).lanes = A := rfl
@[simp] theorem State.setLanes_phase (A : Lanes) :
    (s.setLanes A).phase = s.phase := rfl
@[simp] theorem State.setLanes_err (A : Lanes) :
    (s.setLanes A).err = s.err := rfl
@[simp] theorem State.setLanes_ecmd (A : Lanes) :
    (s.setLanes A).ecmd = s.ecmd := rfl
@[simp] theorem State.setLanes_src (A : Lanes) :
    (s.setLanes A).src = s.src := rfl
@[simp] theorem State.setLanes_len (A : Lanes) :
    (s.setLanes A).len = s.len := rfl
@[simp] theorem State.setLanes_dst (A : Lanes) :
    (s.setLanes A).dst = s.dst := rfl
@[simp] theorem State.setLanes_mem (A : Lanes) :
    (s.setLanes A).mem = s.mem := rfl
@[simp] theorem State.setLanes_platform (A : Lanes) :
    (s.setLanes A).platform = s.platform := rfl
@[simp] theorem State.setLanes_pending (A : Lanes) :
    (s.setLanes A).pending = s.pending := rfl
@[simp] theorem State.setLanes_replies (A : Lanes) :
    (s.setLanes A).replies = s.replies := rfl
@[simp] theorem State.setLanes_draws (A : Lanes) :
    (s.setLanes A).draws = s.draws := rfl

@[simp] theorem State.setPhase_lanes (p : Phase) :
    (s.setPhase p).lanes = s.lanes := rfl
@[simp] theorem State.setPhase_phase (p : Phase) :
    (s.setPhase p).phase = p := rfl
@[simp] theorem State.setPhase_err (p : Phase) :
    (s.setPhase p).err = s.err := rfl
@[simp] theorem State.setPhase_ecmd (p : Phase) :
    (s.setPhase p).ecmd = s.ecmd := rfl
@[simp] theorem State.setPhase_src (p : Phase) :
    (s.setPhase p).src = s.src := rfl
@[simp] theorem State.setPhase_len (p : Phase) :
    (s.setPhase p).len = s.len := rfl
@[simp] theorem State.setPhase_dst (p : Phase) :
    (s.setPhase p).dst = s.dst := rfl
@[simp] theorem State.setPhase_mem (p : Phase) :
    (s.setPhase p).mem = s.mem := rfl
@[simp] theorem State.setPhase_platform (p : Phase) :
    (s.setPhase p).platform = s.platform := rfl
@[simp] theorem State.setPhase_pending (p : Phase) :
    (s.setPhase p).pending = s.pending := rfl
@[simp] theorem State.setPhase_replies (p : Phase) :
    (s.setPhase p).replies = s.replies := rfl
@[simp] theorem State.setPhase_draws (p : Phase) :
    (s.setPhase p).draws = s.draws := rfl

@[simp] theorem State.setMem_lanes (m : Memory) :
    (s.setMem m).lanes = s.lanes := rfl
@[simp] theorem State.setMem_phase (m : Memory) :
    (s.setMem m).phase = s.phase := rfl
@[simp] theorem State.setMem_err (m : Memory) :
    (s.setMem m).err = s.err := rfl
@[simp] theorem State.setMem_ecmd (m : Memory) :
    (s.setMem m).ecmd = s.ecmd := rfl
@[simp] theorem State.setMem_src (m : Memory) :
    (s.setMem m).src = s.src := rfl
@[simp] theorem State.setMem_len (m : Memory) :
    (s.setMem m).len = s.len := rfl
@[simp] theorem State.setMem_dst (m : Memory) :
    (s.setMem m).dst = s.dst := rfl
@[simp] theorem State.setMem_mem (m : Memory) :
    (s.setMem m).mem = m := rfl
@[simp] theorem State.setMem_platform (m : Memory) :
    (s.setMem m).platform = s.platform := rfl
@[simp] theorem State.setMem_pending (m : Memory) :
    (s.setMem m).pending = s.pending := rfl
@[simp] theorem State.setMem_replies (m : Memory) :
    (s.setMem m).replies = s.replies := rfl
@[simp] theorem State.setMem_draws (m : Memory) :
    (s.setMem m).draws = s.draws := rfl

@[simp] theorem State.setSrc_lanes (v : Nat) :
    (s.setSrc v).lanes = s.lanes := rfl
@[simp] theorem State.setSrc_phase (v : Nat) :
    (s.setSrc v).phase = s.phase := rfl
@[simp] theorem State.setSrc_err (v : Nat) :
    (s.setSrc v).err = s.err := rfl
@[simp] theorem State.setSrc_ecmd (v : Nat) :
    (s.setSrc v).ecmd = s.ecmd := rfl
@[simp] theorem State.setSrc_src (v : Nat) :
    (s.setSrc v).src = v % 2 ^ s.platform.aw := rfl
@[simp] theorem State.setSrc_len (v : Nat) :
    (s.setSrc v).len = s.len := rfl
@[simp] theorem State.setSrc_dst (v : Nat) :
    (s.setSrc v).dst = s.dst := rfl
@[simp] theorem State.setSrc_mem (v : Nat) :
    (s.setSrc v).mem = s.mem := rfl
@[simp] theorem State.setSrc_platform (v : Nat) :
    (s.setSrc v).platform = s.platform := rfl
@[simp] theorem State.setSrc_pending (v : Nat) :
    (s.setSrc v).pending = s.pending := rfl
@[simp] theorem State.setSrc_replies (v : Nat) :
    (s.setSrc v).replies = s.replies := rfl
@[simp] theorem State.setSrc_draws (v : Nat) :
    (s.setSrc v).draws = s.draws := rfl

@[simp] theorem State.setLen_lanes (v : Nat) :
    (s.setLen v).lanes = s.lanes := rfl
@[simp] theorem State.setLen_phase (v : Nat) :
    (s.setLen v).phase = s.phase := rfl
@[simp] theorem State.setLen_err (v : Nat) :
    (s.setLen v).err = s.err := rfl
@[simp] theorem State.setLen_ecmd (v : Nat) :
    (s.setLen v).ecmd = s.ecmd := rfl
@[simp] theorem State.setLen_src (v : Nat) :
    (s.setLen v).src = s.src := rfl
@[simp] theorem State.setLen_len (v : Nat) :
    (s.setLen v).len = v % 2 ^ s.platform.aw := rfl
@[simp] theorem State.setLen_dst (v : Nat) :
    (s.setLen v).dst = s.dst := rfl
@[simp] theorem State.setLen_mem (v : Nat) :
    (s.setLen v).mem = s.mem := rfl
@[simp] theorem State.setLen_platform (v : Nat) :
    (s.setLen v).platform = s.platform := rfl
@[simp] theorem State.setLen_pending (v : Nat) :
    (s.setLen v).pending = s.pending := rfl
@[simp] theorem State.setLen_replies (v : Nat) :
    (s.setLen v).replies = s.replies := rfl
@[simp] theorem State.setLen_draws (v : Nat) :
    (s.setLen v).draws = s.draws := rfl

@[simp] theorem State.setDst_lanes (v : Nat) :
    (s.setDst v).lanes = s.lanes := rfl
@[simp] theorem State.setDst_phase (v : Nat) :
    (s.setDst v).phase = s.phase := rfl
@[simp] theorem State.setDst_err (v : Nat) :
    (s.setDst v).err = s.err := rfl
@[simp] theorem State.setDst_ecmd (v : Nat) :
    (s.setDst v).ecmd = s.ecmd := rfl
@[simp] theorem State.setDst_src (v : Nat) :
    (s.setDst v).src = s.src := rfl
@[simp] theorem State.setDst_len (v : Nat) :
    (s.setDst v).len = s.len := rfl
@[simp] theorem State.setDst_dst (v : Nat) :
    (s.setDst v).dst = v % 2 ^ s.platform.aw := rfl
@[simp] theorem State.setDst_mem (v : Nat) :
    (s.setDst v).mem = s.mem := rfl
@[simp] theorem State.setDst_platform (v : Nat) :
    (s.setDst v).platform = s.platform := rfl
@[simp] theorem State.setDst_pending (v : Nat) :
    (s.setDst v).pending = s.pending := rfl
@[simp] theorem State.setDst_replies (v : Nat) :
    (s.setDst v).replies = s.replies := rfl
@[simp] theorem State.setDst_draws (v : Nat) :
    (s.setDst v).draws = s.draws := rfl

@[simp] theorem State.setPending_lanes (ops : List HostOp) :
    (s.setPending ops).lanes = s.lanes := rfl
@[simp] theorem State.setPending_phase (ops : List HostOp) :
    (s.setPending ops).phase = s.phase := rfl
@[simp] theorem State.setPending_err (ops : List HostOp) :
    (s.setPending ops).err = s.err := rfl
@[simp] theorem State.setPending_ecmd (ops : List HostOp) :
    (s.setPending ops).ecmd = s.ecmd := rfl
@[simp] theorem State.setPending_src (ops : List HostOp) :
    (s.setPending ops).src = s.src := rfl
@[simp] theorem State.setPending_len (ops : List HostOp) :
    (s.setPending ops).len = s.len := rfl
@[simp] theorem State.setPending_dst (ops : List HostOp) :
    (s.setPending ops).dst = s.dst := rfl
@[simp] theorem State.setPending_mem (ops : List HostOp) :
    (s.setPending ops).mem = s.mem := rfl
@[simp] theorem State.setPending_platform (ops : List HostOp) :
    (s.setPending ops).platform = s.platform := rfl
@[simp] theorem State.setPending_pending (ops : List HostOp) :
    (s.setPending ops).pending = ops := rfl
@[simp] theorem State.setPending_replies (ops : List HostOp) :
    (s.setPending ops).replies = s.replies := rfl
@[simp] theorem State.setPending_draws (ops : List HostOp) :
    (s.setPending ops).draws = s.draws := rfl

@[simp] theorem State.reply_lanes (v : Nat) :
    (s.reply v).lanes = s.lanes := rfl
@[simp] theorem State.reply_phase (v : Nat) :
    (s.reply v).phase = s.phase := rfl
@[simp] theorem State.reply_err (v : Nat) :
    (s.reply v).err = s.err := rfl
@[simp] theorem State.reply_ecmd (v : Nat) :
    (s.reply v).ecmd = s.ecmd := rfl
@[simp] theorem State.reply_src (v : Nat) :
    (s.reply v).src = s.src := rfl
@[simp] theorem State.reply_len (v : Nat) :
    (s.reply v).len = s.len := rfl
@[simp] theorem State.reply_dst (v : Nat) :
    (s.reply v).dst = s.dst := rfl
@[simp] theorem State.reply_mem (v : Nat) :
    (s.reply v).mem = s.mem := rfl
@[simp] theorem State.reply_platform (v : Nat) :
    (s.reply v).platform = s.platform := rfl
@[simp] theorem State.reply_pending (v : Nat) :
    (s.reply v).pending = s.pending := rfl
@[simp] theorem State.reply_replies (v : Nat) :
    (s.reply v).replies = s.replies ++ [v] := rfl
@[simp] theorem State.reply_draws (v : Nat) :
    (s.reply v).draws = s.draws := rfl

@[simp] theorem State.nextDraw_lanes :
    (s.nextDraw).lanes = s.lanes := rfl
@[simp] theorem State.nextDraw_phase :
    (s.nextDraw).phase = s.phase := rfl
@[simp] theorem State.nextDraw_err :
    (s.nextDraw).err = s.err := rfl
@[simp] theorem State.nextDraw_ecmd :
    (s.nextDraw).ecmd = s.ecmd := rfl
@[simp] theorem State.nextDraw_src :
    (s.nextDraw).src = s.src := rfl
@[simp] theorem State.nextDraw_len :
    (s.nextDraw).len = s.len := rfl
@[simp] theorem State.nextDraw_dst :
    (s.nextDraw).dst = s.dst := rfl
@[simp] theorem State.nextDraw_mem :
    (s.nextDraw).mem = s.mem := rfl
@[simp] theorem State.nextDraw_platform :
    (s.nextDraw).platform = s.platform := rfl
@[simp] theorem State.nextDraw_pending :
    (s.nextDraw).pending = s.pending := rfl
@[simp] theorem State.nextDraw_replies :
    (s.nextDraw).replies = s.replies := rfl
@[simp] theorem State.nextDraw_draws :
    (s.nextDraw).draws = s.draws + 1 := rfl

@[simp] theorem State.raiseError_lanes (c : ErrCode) (w : CmdWord) :
    (s.raiseError c w).lanes = s.lanes := rfl
@[simp] theorem State.raiseError_phase (c : ErrCode) (w : CmdWord) :
    (s.raiseError c w).phase = s.phase := rfl
@[simp] theorem State.raiseError_err (c : ErrCode) (w : CmdWord) :
    (s.raiseError c w).err = c := rfl
@[simp] theorem State.raiseError_ecmd (c : ErrCode) (w : CmdWord) :
    (s.raiseError c w).ecmd = w := rfl
@[simp] theorem State.raiseError_src (c : ErrCode) (w : CmdWord) :
    (s.raiseError c w).src = s.src := rfl
@[simp] theorem State.raiseError_len (c : ErrCode) (w : CmdWord) :
    (s.raiseError c w).len = s.len := rfl
@[simp] theorem State.raiseError_dst (c : ErrCode) (w : CmdWord) :
    (s.raiseError c w).dst = s.dst := rfl
@[simp] theorem State.raiseError_mem (c : ErrCode) (w : CmdWord) :
    (s.raiseError c w).mem = s.mem := rfl
@[simp] theorem State.raiseError_platform (c : ErrCode) (w : CmdWord) :
    (s.raiseError c w).platform = s.platform := rfl
@[simp] theorem State.raiseError_pending (c : ErrCode) (w : CmdWord) :
    (s.raiseError c w).pending = s.pending := rfl
@[simp] theorem State.raiseError_replies (c : ErrCode) (w : CmdWord) :
    (s.raiseError c w).replies = s.replies := rfl
@[simp] theorem State.raiseError_draws (c : ErrCode) (w : CmdWord) :
    (s.raiseError c w).draws = s.draws := rfl

@[simp] theorem State.applyReset_lanes :
    s.applyReset.lanes = Vector.replicate 25 0#64 := rfl
@[simp] theorem State.applyReset_phase :
    s.applyReset.phase = .idle := rfl
@[simp] theorem State.applyReset_err :
    s.applyReset.err = .noError := rfl
@[simp] theorem State.applyReset_ecmd :
    s.applyReset.ecmd = 0#32 := rfl
@[simp] theorem State.applyReset_src :
    s.applyReset.src = 0 := rfl
@[simp] theorem State.applyReset_len :
    s.applyReset.len = 0 := rfl
@[simp] theorem State.applyReset_dst :
    s.applyReset.dst = 0 := rfl
@[simp] theorem State.applyReset_mem :
    s.applyReset.mem = s.mem := rfl
@[simp] theorem State.applyReset_platform :
    s.applyReset.platform = s.platform := rfl
@[simp] theorem State.applyReset_pending :
    s.applyReset.pending = s.pending := rfl
@[simp] theorem State.applyReset_replies :
    s.applyReset.replies = s.replies := rfl
@[simp] theorem State.applyReset_draws :
    s.applyReset.draws = s.draws := rfl

@[simp] theorem State.reset_lanes :
    State.reset.lanes = Vector.replicate 25 0#64 := rfl
@[simp] theorem State.reset_phase :
    State.reset.phase = .idle := rfl
@[simp] theorem State.reset_err :
    State.reset.err = .noError := rfl
@[simp] theorem State.reset_ecmd :
    State.reset.ecmd = 0#32 := rfl
@[simp] theorem State.reset_src :
    State.reset.src = 0 := rfl
@[simp] theorem State.reset_len :
    State.reset.len = 0 := rfl
@[simp] theorem State.reset_dst :
    State.reset.dst = 0 := rfl
@[simp] theorem State.reset_mem :
    State.reset.mem = [] := rfl
@[simp] theorem State.reset_platform :
    State.reset.platform = Config.platform := rfl
@[simp] theorem State.reset_pending :
    State.reset.pending = [] := rfl
@[simp] theorem State.reset_replies :
    State.reset.replies = [] := rfl
@[simp] theorem State.reset_draws :
    State.reset.draws = 0 := rfl

end Sys2Proof.Machine
end

