-- ==== Sys2Proof/Laws/Memory.lean ====
section
/-! SUPPORT. The laws of memory: reading after writing, and the canonical form. -/

namespace Sys2Proof.Machine

@[simp] theorem Memory.read_nil (a : Nat) : Memory.read [] a = memFill := rfl

theorem Memory.read_cons (k : Nat) (v : Byte) (m : Memory) (a : Nat) :
    Memory.read ((k, v) :: m) a = if k = a then v else Memory.read m a := rfl

/-! ### The canonical form -/

theorem Memory.wfAbove_cons (k : Nat) (v : Byte) (m : Memory) (lo : Option Nat) :
    Memory.wfAbove ((k, v) :: m) lo = true ↔
      (∀ l, lo = some l → l < k) ∧ v ≠ memFill ∧ Memory.wfAbove m (some k) = true := by
  cases lo <;> simp [Memory.wfAbove, and_assoc]

/-- The form above a bound is the form above any smaller one. -/
theorem Memory.wfAbove_mono {m : Memory} {lo lo' : Option Nat}
    (h : Memory.wfAbove m lo = true) (hle : ∀ l', lo' = some l' → ∃ l, lo = some l ∧ l' ≤ l) :
    Memory.wfAbove m lo' = true := by
  cases m with
  | nil => rfl
  | cons c rest =>
    obtain ⟨k, v⟩ := c
    rw [Memory.wfAbove_cons] at h ⊢
    refine ⟨fun l' hl' => ?_, h.2⟩
    obtain ⟨l, hl, hll⟩ := hle l' hl'
    exact Nat.lt_of_le_of_lt hll (h.1 l hl)

theorem Memory.wf_nil : Memory.wf [] = true := rfl

/-- Below its bound a canonical memory lists nothing. -/
theorem Memory.read_below {m : Memory} {lo a : Nat} (h : Memory.wfAbove m (some lo) = true) (ha : a ≤ lo) :
    m.read a = memFill := by
  induction m generalizing lo with
  | nil => rfl
  | cons c rest ih =>
    obtain ⟨k, v⟩ := c
    rw [Memory.wfAbove_cons] at h
    have hk : lo < k := h.1 lo rfl
    rw [Memory.read_cons, if_neg (by omega)]
    exact ih h.2.2 (by omega)

/-- A write above the bound keeps the form above it. -/
theorem Memory.wfAbove_write {m : Memory} {lo : Option Nat} {a : Nat} (v : Byte)
    (h : Memory.wfAbove m lo = true) (ha : ∀ l, lo = some l → l < a) :
    Memory.wfAbove (m.write a v) lo = true := by
  induction m generalizing lo with
  | nil =>
    unfold Memory.write
    split
    · rfl
    · exact (Memory.wfAbove_cons ..).2 ⟨ha, ‹_›, rfl⟩
  | cons c rest ih =>
    obtain ⟨k, w⟩ := c
    have hc := (Memory.wfAbove_cons ..).1 h
    unfold Memory.write
    split
    · rename_i hlt
      split
      · exact h
      · refine (Memory.wfAbove_cons ..).2 ⟨ha, ‹_›, (Memory.wfAbove_cons ..).2 ⟨?_, hc.2⟩⟩
        intro l hl
        cases hl
        exact hlt
    · rename_i hlt
      split
      · rename_i heq
        subst heq
        split
        · exact Memory.wfAbove_mono hc.2.2 fun l hl => ⟨a, rfl, Nat.le_of_lt (ha l hl)⟩
        · exact (Memory.wfAbove_cons ..).2 ⟨ha, ‹_›, hc.2.2⟩
      · rename_i hne
        refine (Memory.wfAbove_cons ..).2 ⟨hc.1, hc.2.1, ih hc.2.2 ?_⟩
        intro l hl
        cases hl
        omega

/-- A write keeps the canonical form. -/
theorem Memory.wf_write {m : Memory} (h : m.wf = true) (a : Nat) (v : Byte) : (m.write a v).wf = true :=
  Memory.wfAbove_write v h (fun _ hl => by cases hl)

theorem Memory.wf_writeBytes {m : Memory} (h : m.wf = true) (base : Nat) (bs : List Byte) :
    (m.writeBytes base bs).wf = true := by
  induction bs generalizing m base with
  | nil => exact h
  | cons b rest ih => exact ih (Memory.wf_write h base b) (base + 1)

theorem Memory.wf_copyFrom {m : Memory} (h : m.wf = true) (new : Memory) (addrs : List Nat) :
    (m.copyFrom new addrs).wf = true := by
  induction addrs generalizing m with
  | nil => exact h
  | cons a rest ih => exact ih (Memory.wf_write h a _)

/-! ### Reading after writing -/

/-- A read returns the last value written to that byte (rule R59); every other byte is as before. -/
theorem Memory.read_write {m : Memory} {lo : Option Nat} (h : Memory.wfAbove m lo = true) (a b : Nat) (v : Byte) :
    (m.write a v).read b = if b = a then v else m.read b := by
  induction m generalizing lo with
  | nil =>
    unfold Memory.write
    split
    · rename_i hv
      simp [hv]
    · simp only [Memory.read_cons, Memory.read_nil, eq_comm]
  | cons c rest ih =>
    obtain ⟨k, w⟩ := c
    have hc := (Memory.wfAbove_cons ..).1 h
    unfold Memory.write
    split
    · rename_i hlt
      split
      · rename_i hv
        split
        · rename_i hba
          subst hba
          rw [hv, Memory.read_cons, if_neg (by omega)]
          exact Memory.read_below hc.2.2 (by omega)
        · rfl
      · rw [Memory.read_cons a]
        simp only [eq_comm]
    · split
      · rename_i hlt heq
        subst heq
        split
        · rename_i hv
          by_cases hba : b = a
          · subst hba
            rw [if_pos rfl, hv]
            exact Memory.read_below hc.2.2 (Nat.le_refl _)
          · rw [if_neg hba, Memory.read_cons, if_neg (Ne.symm hba)]
        · rw [Memory.read_cons, Memory.read_cons]
          by_cases hba : b = a
          · simp [hba]
          · rw [if_neg (Ne.symm hba), if_neg hba, if_neg (Ne.symm hba)]
      · rename_i hlt hne
        rw [Memory.read_cons, Memory.read_cons, ih hc.2.2]
        by_cases hkb : k = b
        · rw [if_pos hkb, if_pos hkb, if_neg (by omega)]
        · rw [if_neg hkb, if_neg hkb]

theorem Memory.read_write_self {m : Memory} (h : m.wf = true) (a : Nat) (v : Byte) : (m.write a v).read a = v := by
  rw [Memory.read_write h, if_pos rfl]

theorem Memory.read_write_other {m : Memory} (h : m.wf = true) {a b : Nat} (v : Byte) (hba : b ≠ a) :
    (m.write a v).read b = m.read b := by
  rw [Memory.read_write h, if_neg hba]

/-- What memory holds after a run of bytes has been stored. -/
theorem Memory.read_writeBytes {m : Memory} (h : m.wf = true) (base : Nat) (bs : List Byte) (b : Nat) :
    (m.writeBytes base bs).read b =
      if base ≤ b ∧ b < base + bs.length then bs.getD (b - base) 0#8 else m.read b := by
  induction bs generalizing m base with
  | nil => simp only [Memory.writeBytes, List.length_nil, Nat.add_zero]; rw [if_neg (by omega)]
  | cons x rest ih =>
    rw [Memory.writeBytes, ih (Memory.wf_write h base x), Memory.read_write h, List.length_cons]
    by_cases hb : b = base
    · subst hb
      simp
    · rw [if_neg hb]
      by_cases hin : base + 1 ≤ b ∧ b < base + 1 + rest.length
      · rw [if_pos hin, if_pos (by omega)]
        have : b - base = (b - (base + 1)) + 1 := by omega
        rw [this, List.getD_cons_succ]
      · rw [if_neg hin, if_neg (by omega)]

theorem Memory.read_writeBytes_outside {m : Memory} (h : m.wf = true) {base b n : Nat} {bs : List Byte}
    (hlen : bs.length = n) (hb : b < base ∨ base + n ≤ b) : (m.writeBytes base bs).read b = m.read b := by
  rw [Memory.read_writeBytes h, if_neg (by omega)]

theorem Memory.read_writeBytes_inside {m : Memory} (h : m.wf = true) {base k n : Nat} {bs : List Byte}
    (hlen : bs.length = n) (hk : k < n) : (m.writeBytes base bs).read (base + k) = bs.getD k 0#8 := by
  rw [Memory.read_writeBytes h, if_pos (by omega), Nat.add_sub_cancel_left]

/-- Copying bytes from another memory gives each copied byte its value there. -/
theorem Memory.read_copyFrom {m : Memory} (h : m.wf = true) (new : Memory) (addrs : List Nat) (b : Nat) :
    (m.copyFrom new addrs).read b = if b ∈ addrs then new.read b else m.read b := by
  induction addrs generalizing m with
  | nil => simp [Memory.copyFrom]
  | cons a rest ih =>
    rw [Memory.copyFrom, ih (Memory.wf_write h a _), Memory.read_write h]
    by_cases hr : b ∈ rest
    · simp [hr]
    · by_cases hba : b = a
      · simp [hba]
      · simp [hr, hba]

@[simp] theorem Memory.length_readBytes (m : Memory) (base n : Nat) : (m.readBytes base n).length = n := by
  simp [Memory.readBytes]

theorem Memory.getD_readBytes (m : Memory) (base n k : Nat) (hk : k < n) :
    (m.readBytes base n).getD k 0#8 = m.read (base + k) := by
  simp [Memory.readBytes, List.getD, hk]

/-- The bytes read depend on memory only at their own addresses. -/
theorem Memory.readBytes_congr {m n : Memory} {base k : Nat}
    (h : ∀ j, j < k → m.read (base + j) = n.read (base + j)) : m.readBytes base k = n.readBytes base k := by
  refine List.map_congr_left fun a ha => ?_
  obtain ⟨j, hj, rfl⟩ := List.mem_range'.1 ha
  simpa using h j hj

/-! ### Which addresses are listed -/

theorem Memory.write_keys {m : Memory} {a : Nat} {v : Byte} {c : Host.Cell} (hc : c ∈ m.write a v) :
    c ∈ m ∨ (c.1 = a ∧ v ≠ memFill) := by
  induction m with
  | nil =>
    unfold Memory.write at hc
    split at hc
    · simp at hc
    · simp at hc
      subst hc
      exact .inr ⟨rfl, ‹_›⟩
  | cons d rest ih =>
    obtain ⟨k, w⟩ := d
    unfold Memory.write at hc
    split at hc
    · split at hc
      · exact .inl hc
      · rcases List.mem_cons.1 hc with rfl | hc
        · exact .inr ⟨rfl, ‹_›⟩
        · exact .inl hc
    · split at hc
      · split at hc
        · exact .inl (List.mem_cons_of_mem _ hc)
        · rcases List.mem_cons.1 hc with rfl | hc
          · exact .inr ⟨rfl, ‹_›⟩
          · exact .inl (List.mem_cons_of_mem _ hc)
      · rcases List.mem_cons.1 hc with rfl | hc
        · exact .inl (List.mem_cons_self ..)
        · exact (ih hc).imp_left (List.mem_cons_of_mem _)

/-- Two canonical memories that read alike everywhere are equal. -/
theorem Memory.ext_read {m n : Memory} {lo lo' : Option Nat} (hm : Memory.wfAbove m lo = true)
    (hn : Memory.wfAbove n lo' = true) (h : ∀ a, m.read a = n.read a) : m = n := by
  induction m generalizing n lo lo' with
  | nil =>
    cases n with
    | nil => rfl
    | cons d ns =>
      obtain ⟨k, v⟩ := d
      have hd := (Memory.wfAbove_cons ..).1 hn
      have := h k
      rw [Memory.read_cons, if_pos rfl] at this
      exact absurd this.symm hd.2.1
  | cons c ms ih =>
    obtain ⟨j, u⟩ := c
    have hc := (Memory.wfAbove_cons ..).1 hm
    cases n with
    | nil =>
      have := h j
      rw [Memory.read_cons, if_pos rfl] at this
      exact absurd this hc.2.1
    | cons d ns =>
      obtain ⟨k, v⟩ := d
      have hd := (Memory.wfAbove_cons ..).1 hn
      have hjk : j = k := by
        rcases Nat.lt_trichotomy j k with hlt | heq | hgt
        · have := h j
          rw [Memory.read_cons, if_pos rfl, Memory.read_cons, if_neg (by omega),
            Memory.read_below hd.2.2 (by omega)] at this
          exact absurd this hc.2.1
        · exact heq
        · have := h k
          rw [Memory.read_cons, if_neg (by omega), Memory.read_below hc.2.2 (by omega), Memory.read_cons,
            if_pos rfl] at this
          exact absurd this.symm hd.2.1
      subst hjk
      have huv : u = v := by simpa [Memory.read_cons] using h j
      subst huv
      rw [ih hc.2.2 hd.2.2 fun a => ?_]
      by_cases haj : a ≤ j
      · rw [Memory.read_below hc.2.2 haj, Memory.read_below hd.2.2 haj]
      · have := h a
        rwa [Memory.read_cons, Memory.read_cons, if_neg (by omega), if_neg (by omega)] at this

end Sys2Proof.Machine
end

