-- ==== Sys2Proof/Laws/Lanes.lean ====
section
/-! SUPPORT. What each lane of a step mapping, of the block XOR and of the transfers holds; bytes and lanes. -/

namespace Sys2Proof.Machine

variable (A : Lanes)

/-! ### Positions -/

@[simp] theorem col_pos (x y : Fin 5) : col (pos x y) = x := by
  apply Fin.ext
  show (x.val + 5 * y.val) % 5 = x.val
  omega

@[simp] theorem row_pos (x y : Fin 5) : row (pos x y) = y := by
  apply Fin.ext
  show (x.val + 5 * y.val) / 5 = y.val
  omega

@[simp] theorem pos_col_row (i : Fin 25) : pos (col i) (row i) = i := by
  apply Fin.ext
  show i.val % 5 + 5 * (i.val / 5) = i.val
  omega

/-- Two states with the same lanes are equal. -/
theorem lanes_ext {A B : Lanes} (h : ∀ i : Fin 25, A[i] = B[i]) : A = B := by
  apply Vector.ext
  intro i hi
  exact h ⟨i, hi⟩

/-! ### The step mappings, lane by lane (rules R90 to R94) -/

@[simp] theorem theta_lane (i : Fin 25) : (theta A)[i] = A[i] ^^^ thetaD A (col i) := by
  simp [theta]

@[simp] theorem rho_lane (i : Fin 25) : (rho A)[i] = rotl64 A[i] (rotOf i) := by
  simp [rho]

@[simp] theorem piStep_lane (i : Fin 25) : (piStep A)[i] = A[piSrc i] := by
  simp [piStep]

@[simp] theorem chi_lane (i : Fin 25) :
    (chi A)[i] = A[i] ^^^ (~~~ A[pos (col i + 1) (row i)] &&& A[pos (col i + 2) (row i)]) := by
  simp [chi]

@[simp] theorem iota_lane (r : Nat) (i : Fin 25) :
    (iota A r)[i] = if i.val = 0 then A[i] ^^^ rc r else A[i] := by
  simp [iota]

@[simp] theorem zeroLanes_lane (i : Fin 25) : zeroLanes[i] = 0#64 := by
  simp [zeroLanes]

/-! ### The block XOR and the padded block (rules R112, R116) -/

@[simp] theorem xorBlock_lane (bk : Block) (i : Fin 25) :
    (xorBlock A bk)[i] = if i.val < 17 then A[i] ^^^ blockLane bk i.val else A[i] := by
  simp [xorBlock]

@[simp] theorem padBlock_byte (t : List Byte) (j : Fin 136) :
    (padBlock t)[j] = t.getD j.val 0x00#8 ||| (if j.val = t.length then 0x01#8 else 0x00#8) |||
      (if j.val = 135 then 0x80#8 else 0x00#8) := by
  simp [padBlock]

@[simp] theorem readBlock_byte (m : Memory) (base : Nat) (j : Fin 136) :
    (readBlock m base)[j] = m.read (base + j.val) := by
  simp [readBlock]

@[simp] theorem readLanes_lane (m : Memory) (base : Nat) (i : Fin 25) :
    (readLanes m base)[i] = le64 fun j => m.read (base + 8 * i.val + j.val) := by
  simp [readLanes]

/-- A block depends on memory only at its 136 addresses. -/
theorem readBlock_congr {m n : Memory} {base : Nat} (h : ∀ j, j < 136 → m.read (base + j) = n.read (base + j)) :
    readBlock m base = readBlock n base := by
  unfold readBlock
  congr 1
  funext j
  exact h _ j.isLt

/-- A loaded state depends on memory only at its 200 addresses. -/
theorem readLanes_congr {m n : Memory} {base : Nat} (h : ∀ j, j < 200 → m.read (base + j) = n.read (base + j)) :
    readLanes m base = readLanes n base := by
  unfold readLanes
  congr 1
  funext i
  congr 1
  funext j
  rw [Nat.add_assoc]
  exact h _ (by omega)

/-! ### Bytes and lanes (rule R10) -/

/-- Bit `r` of byte `j` is bit `8j + r` of the assembled lane. -/
theorem le64_bit (b : Fin 8 → Byte) (j : Fin 8) (r : Nat) (hr : r < 8) :
    (le64 b).getLsbD (8 * j.val + r) = (b j).getLsbD r := by
  fin_cases j <;>
    (simp only [le64, BitVec.getLsbD_append]
     repeat' split
     all_goals first | (exfalso; omega) | (congr 1; omega))

theorem laneByte_bit (v : Lane) (j r : Nat) (hr : r < 8) : (laneByte v j).getLsbD r = v.getLsbD (8 * j + r) := by
  simp [laneByte, hr]

/-- `byte(LE64(b0 … b7), j) = bj`. -/
theorem laneByte_le64 (b : Fin 8 → Byte) (j : Fin 8) : laneByte (le64 b) j.val = b j := by
  apply BitVec.eq_of_getLsbD_eq
  intro r hr
  rw [laneByte_bit _ _ _ hr, le64_bit _ _ _ hr]

/-- The assembly of a lane's own bytes is the lane. -/
theorem le64_laneByte (v : Lane) : le64 (fun j => laneByte v j.val) = v := by
  apply BitVec.eq_of_getLsbD_eq
  intro i hi
  have h := le64_bit (fun j => laneByte v j.val) ⟨i / 8, by omega⟩ (i % 8) (by omega)
  rw [laneByte_bit _ _ _ (by omega)] at h
  have e : 8 * (i / 8) + i % 8 = i := by omega
  simpa only [e] using h

@[simp] theorem length_imageBytes (n : Nat) : (imageBytes A n).length = n := by
  simp [imageBytes]

/-- Byte `8i + j` of the image is `byte(A[i], j)` (rule R53). -/
theorem imageBytes_getD {n k : Nat} (hk : k < n) :
    (imageBytes A n).getD k 0#8 = laneByte (A.getD (k / 8) 0#64) (k % 8) := by
  simp [imageBytes, List.getD, hk]

@[simp] theorem length_digest : (digest A).length = 32 := length_imageBytes A 32

@[simp] theorem length_stateImage : (stateImage A).length = 200 := length_imageBytes A 200

end Sys2Proof.Machine
end

