-- ==== Sys2Proof/Laws/Command.lean ====
section
/-! SUPPORT. What the shared dispatch can do (rule R76), and what it takes for a range to be admitted (rule R58). -/

namespace Sys2Proof.Machine

theorem memRange_mem_addrs (r : MemRange) (a : Nat) : a ∈ r.addrs ↔ r.base ≤ a ∧ a < r.base + r.size := by
  simp [MemRange.addrs, List.mem_range']
  constructor
  · rintro ⟨i, hi, rfl⟩
    omega
  · rintro ⟨h1, h2⟩
    exact ⟨a - r.base, by omega, by omega⟩

/-- `RangeOK` in words (rule R58). -/
theorem rangeOK_iff (p : Platform) (r : MemRange) : rangeOK p r = true ↔ Admitted p r.base r.size r.kind := by
  simp [rangeOK, Admitted, memRange_mem_addrs]

/-- Everything the shared dispatch can do. -/
theorem command_cases {i : Instr} {effect : State → State} {s t : State} (h : command i effect s = .next t) :
    (s.err ≠ .noError ∧ t = s) ∨
    (s.err = .noError ∧ admission i s = .noError ∧ t = effect s) ∨
    (s.err = .noError ∧ admission i s ≠ .noError ∧ t = s.raiseError (admission i s) (encode i)) := by
  unfold command at h
  split at h
  · cases h
    exact .inl ⟨‹_›, rfl⟩
  · rename_i herr
    have herr : s.err = .noError := by simpa using herr
    split at h
    · cases h
      exact .inr (.inl ⟨herr, ‹_›, rfl⟩)
    · cases h
      exact .inr (.inr ⟨herr, ‹_›, rfl⟩)

/-- A command always answers a next state. -/
theorem command_next (i : Instr) (effect : State → State) (s : State) : ∃ t, command i effect s = .next t := by
  unfold command
  split
  · exact ⟨_, rfl⟩
  · split <;> exact ⟨_, rfl⟩

/-- While ERR is set a command does nothing (rule R145). -/
theorem command_refused {i : Instr} {effect : State → State} {s : State} (h : s.err ≠ .noError) :
    command i effect s = .next s := by
  simp [command, h]

/-- An admitted command has its effect (rule R76 step 6). -/
theorem command_runs {i : Instr} {effect : State → State} {s : State} (herr : s.err = .noError)
    (h : admission i s = .noError) : command i effect s = .next (effect s) := by
  simp [command, herr, h]

/-- A command that is not admitted enters the error, and nothing else (rules R76, R144). -/
theorem command_raises {i : Instr} {effect : State → State} {s : State} (herr : s.err = .noError)
    (h : admission i s ≠ .noError) : command i effect s = .next (s.raiseError (admission i s) (encode i)) := by
  unfold command
  rw [if_neg (by simp [herr])]
  split
  · exact absurd ‹_› h
  · rfl

/-- A command is admitted exactly when its argument, its phase and all its ranges are (rule R76 steps 3 to 5). -/
theorem admission_noError_iff (i : Instr) (s : State) :
    admission i s = .noError ↔
      argOK i s.len = true ∧ allowed i s.phase = true ∧ ∀ r ∈ ranges i s, rangeOK s.platform r = true := by
  unfold admission
  split
  · rename_i h
    simp [h]
  · split
    · rename_i h
      simp [h]
    · split
      · rename_i h1 h2 h3
        simp only [reduceCtorEq, false_iff, not_and]
        intro _ _ hall
        exact absurd (List.all_eq_true.2 hall) (by simp [h3])
      · rename_i h1 h2 h3
        simp only [Bool.not_eq_false] at h1 h2 h3
        exact ⟨fun _ => ⟨h1, h2, List.all_eq_true.1 h3⟩, fun _ => rfl⟩

end Sys2Proof.Machine
end

