-- ==== Sys2Proof/Laws/Exec.lean ====
section
/-! SUPPORT. `exec` as the shared dispatch over the effect of each command; what the effects leave unchanged. -/

namespace Sys2Proof.Machine

/-- The effect of each command once it is admitted (rule R76 step 6). -/
def effectOf (i : Instr) (s : State) : State :=
  match i with
  | .nop => s
  | .init => (s.setLanes zeroLanes).setPhase .absorbing
  | .absorb => s.setLanes (absorbBlock s.lanes (readBlock s.mem s.src))
  | .final => (s.setLanes (absorbBlock s.lanes (padBlock (s.mem.readBytes s.src s.len)))).setPhase .done
  | .squeeze => (s.setMem (s.mem.writeBytes s.dst (digest s.lanes))).setPhase .idle
  | .hash => hashEffect (s.mem.readBytes s.src s.len) s
  | .ldst => s.setLanes (readLanes s.mem s.src)
  | .stst => s.setMem (s.mem.writeBytes s.dst (stateImage s.lanes))
  | .permute => s.setLanes (keccakF s.lanes)
  | .round arg => s.setLanes (keccakRound s.lanes arg)
  | .theta => s.setLanes (theta s.lanes)
  | .rho => s.setLanes (rho s.lanes)
  | .pi => s.setLanes (piStep s.lanes)
  | .chi => s.setLanes (chi s.lanes)
  | .iota arg => s.setLanes (iota s.lanes arg)

/-- Every command goes through the shared dispatch. -/
theorem exec_eq_command (i : Instr) (s : State) : exec i s = command i (effectOf i) s := by
  cases i <;> rfl

/-- Everything a command can do: nothing while ERR is set, its effect when it is admitted, else the error entry. -/
theorem exec_cases {i : Instr} {s t : State} (h : exec i s = .next t) :
    (s.err ≠ .noError ∧ t = s) ∨
    (s.err = .noError ∧ admission i s = .noError ∧ t = effectOf i s) ∨
    (s.err = .noError ∧ admission i s ≠ .noError ∧ t = s.raiseError (admission i s) (encode i)) :=
  command_cases (exec_eq_command i s ▸ h)

variable (m : List Byte) (s : State)

@[simp] theorem hashEffect_lanes : (hashEffect m s).lanes = absorbMessage m := by simp [hashEffect]
@[simp] theorem hashEffect_phase : (hashEffect m s).phase = .idle := by simp [hashEffect]
@[simp] theorem hashEffect_err : (hashEffect m s).err = s.err := by simp [hashEffect]
@[simp] theorem hashEffect_ecmd : (hashEffect m s).ecmd = s.ecmd := by simp [hashEffect]
@[simp] theorem hashEffect_src : (hashEffect m s).src = s.src := by simp [hashEffect]
@[simp] theorem hashEffect_len : (hashEffect m s).len = s.len := by simp [hashEffect]
@[simp] theorem hashEffect_dst : (hashEffect m s).dst = s.dst := by simp [hashEffect]
@[simp] theorem hashEffect_mem :
    (hashEffect m s).mem = s.mem.writeBytes s.dst (keccak256 m) := by simp [hashEffect]
@[simp] theorem hashEffect_platform : (hashEffect m s).platform = s.platform := by simp [hashEffect]
@[simp] theorem hashEffect_pending : (hashEffect m s).pending = s.pending := by simp [hashEffect]
@[simp] theorem hashEffect_replies : (hashEffect m s).replies = s.replies := by simp [hashEffect]
@[simp] theorem hashEffect_draws : (hashEffect m s).draws = s.draws := by simp [hashEffect]

variable (i : Instr)

@[simp] theorem effectOf_err : (effectOf i s).err = s.err := by cases i <;> simp [effectOf]
@[simp] theorem effectOf_ecmd : (effectOf i s).ecmd = s.ecmd := by cases i <;> simp [effectOf]
@[simp] theorem effectOf_src : (effectOf i s).src = s.src := by cases i <;> simp [effectOf]
@[simp] theorem effectOf_len : (effectOf i s).len = s.len := by cases i <;> simp [effectOf]
@[simp] theorem effectOf_dst : (effectOf i s).dst = s.dst := by cases i <;> simp [effectOf]
@[simp] theorem effectOf_platform : (effectOf i s).platform = s.platform := by cases i <;> simp [effectOf]
@[simp] theorem effectOf_pending : (effectOf i s).pending = s.pending := by cases i <;> simp [effectOf]
@[simp] theorem effectOf_replies : (effectOf i s).replies = s.replies := by cases i <;> simp [effectOf]
@[simp] theorem effectOf_draws : (effectOf i s).draws = s.draws := by cases i <;> simp [effectOf]

/-! ### Running a command -/

/-- A command whose argument, phase and ranges are admitted answers its effect. -/
theorem exec_runs {i : Instr} {s : State} (herr : s.err = .noError) (harg : argOK i s.len = true)
    (hphase : allowed i s.phase = true)
    (hranges : ∀ r ∈ ranges i s, Admitted s.platform r.base r.size r.kind) :
    exec i s = .next (effectOf i s) := by
  rw [exec_eq_command]
  exact command_runs herr ((admission_noError_iff i s).2
    ⟨harg, hphase, fun r hr => (rangeOK_iff s.platform r).2 (hranges r hr)⟩)

/-- While ERR is set `exec` answers the state it was given. -/
theorem exec_refused {i : Instr} {s : State} (herr : s.err ≠ .noError) : exec i s = .next s := by
  rw [exec_eq_command]
  exact command_refused herr

theorem State.setLanes_eq (A : Lanes) : s.setLanes A = { s with lanes := A } := rfl
theorem State.setPhase_eq (p : Phase) : s.setPhase p = { s with phase := p } := rfl
theorem State.setMem_eq (m : Memory) : s.setMem m = { s with mem := m } := rfl
theorem State.setPending_eq (ops : List HostOp) : s.setPending ops = { s with pending := ops } := rfl

theorem effectOf_init : effectOf .init s = { s with lanes := zeroLanes, phase := .absorbing } := rfl

theorem effectOf_absorb :
    effectOf .absorb s = { s with lanes := keccakF (xorBlock s.lanes (readBlock s.mem s.src)) } := by
  simp only [effectOf, absorbBlock, State.setLanes_eq]

theorem effectOf_final :
    effectOf .final s =
      { s with
        lanes := keccakF (xorBlock s.lanes (padBlock (s.mem.readBytes s.src s.len))), phase := .done } := by
  simp only [effectOf, absorbBlock, State.setLanes_eq, State.setPhase_eq]

theorem effectOf_squeeze :
    effectOf .squeeze s = { s with mem := s.mem.writeBytes s.dst (digest s.lanes), phase := .idle } := by
  simp only [effectOf, State.setMem_eq, State.setPhase_eq]

theorem effectOf_hash :
    effectOf .hash s =
      { s with
        lanes := absorbMessage (s.mem.readBytes s.src s.len),
        mem := s.mem.writeBytes s.dst (keccak256 (s.mem.readBytes s.src s.len)), phase := .idle } := by
  simp only [effectOf, hashEffect, State.setLanes_eq, State.setMem_eq, State.setPhase_eq]

/-! ### Memory after a command -/

@[simp] theorem length_keccak256 : (keccak256 m).length = 32 := by simp [keccak256]

theorem effectOf_squeeze_mem : (effectOf .squeeze s).mem = s.mem.writeBytes s.dst (digest s.lanes) := by
  simp only [effectOf, State.setPhase_mem, State.setMem_mem]

theorem effectOf_hash_mem :
    (effectOf .hash s).mem = s.mem.writeBytes s.dst (keccak256 (s.mem.readBytes s.src s.len)) := by
  simp only [effectOf, hashEffect_mem]

theorem effectOf_stst_mem : (effectOf .stst s).mem = s.mem.writeBytes s.dst (stateImage s.lanes) := by
  simp only [effectOf, State.setMem_mem]

/-- The twelve commands that store nothing leave memory as it is (rule R51). -/
theorem effectOf_mem_unchanged (h : i ≠ .squeeze ∧ i ≠ .hash ∧ i ≠ .stst) : (effectOf i s).mem = s.mem := by
  cases i <;> simp_all [effectOf]

end Sys2Proof.Machine
end

