-- ==== Sys2Proof/Laws/PerInstr.lean ====
section
/-! SUPPORT. The per-instruction family `EncodedFields`: one lemma per command about its encoding. -/

namespace Sys2Proof.Laws.EncodedFields

/-- Rule R71, for the command `i`: the encoded word has the opcode in bits 7:0, `arg` in bits 15:8 and zeros in
bits 31:16. -/
def Statement (i : Instr) : Prop :=
  opField (encode i) = opcode i ∧ argField (encode i) = argOf i ∧ zeroField (encode i) = 0#16

theorem holds (i : Instr) : Statement i := ⟨opField_encode i, argField_encode i, zeroField_encode i⟩

theorem nop : Statement .nop := holds _
theorem init : Statement .init := holds _
theorem absorb : Statement .absorb := holds _
theorem final : Statement .final := holds _
theorem squeeze : Statement .squeeze := holds _
theorem hash : Statement .hash := holds _
theorem ldst : Statement .ldst := holds _
theorem stst : Statement .stst := holds _
theorem permute : Statement .permute := holds _
theorem round (arg : Nat) : Statement (.round arg) := holds _
theorem theta : Statement .theta := holds _
theorem rho : Statement .rho := holds _
theorem pi : Statement .pi := holds _
theorem chi : Statement .chi := holds _
theorem iota (arg : Nat) : Statement (.iota arg) := holds _

end Sys2Proof.Laws.EncodedFields
end

