-- ==== Sys2Proof/Laws/Step.lean ====
section
/-! SUPPORT. Everything that issuing a word, a port access and a step can do (rules R29, R39, R76), and running steps. -/

namespace Sys2Proof.Machine

theorem exec_next (i : Instr) (s : State) : ∃ t, exec i s = .next t := by
  rw [exec_eq_command]
  exact command_next i (effectOf i) s

/-- Everything that issuing a word can do (rule R76). -/
theorem issue_cases {w : CmdWord} {s t : State} (h : issue w s = .next t) :
    (s.err ≠ .noError ∧ t = s) ∨
    (s.err = .noError ∧ (∃ e, decode w = .error e) ∧ t = s.raiseError .illegal w) ∨
    (s.err = .noError ∧ ∃ i, decode w = .ok i ∧ exec i s = .next t) := by
  unfold issue at h
  split at h
  · cases h
    exact .inl ⟨‹_›, rfl⟩
  · have herr : s.err = .noError := by simpa using ‹¬ s.err ≠ .noError›
    split at h
    · cases h
      exact .inr (.inl ⟨herr, ⟨_, ‹_›⟩, rfl⟩)
    · exact .inr (.inr ⟨herr, _, ‹_›, h⟩)

theorem issue_next (w : CmdWord) (s : State) : ∃ t, issue w s = .next t := by
  unfold issue
  split
  · exact ⟨_, rfl⟩
  · split
    · exact ⟨_, rfl⟩
    · exact exec_next _ s

/-- A word that decodes to `i` is issued as `exec i`, whatever ERR is. -/
theorem issue_decoded {w : CmdWord} {i : Instr} (h : decode w = .ok i) (s : State) : issue w s = exec i s := by
  unfold issue
  split
  · rw [exec_refused ‹_›]
  · rw [h]

theorem portReg_eq_cmd (n : RegNum) : portReg n = .cmd ↔ n = 0#3 := by
  revert n
  decide

/-- Everything that `HostWrite` can do. -/
theorem hostWrite_cases {n : RegNum} {v : Nat} {s t : State} (h : hostWrite n v s = .next t) :
    (n = 0#3 ∧ issue (BitVec.ofNat 32 v) s = .next t) ∨ t = s ∨ t = s.setSrc v ∨ t = s.setLen v ∨
      t = s.setDst v := by
  unfold hostWrite at h
  split at h
  · rename_i hn
    exact .inl ⟨(portReg_eq_cmd n).1 hn, h⟩
  all_goals
    cases h
    simp

theorem hostWrite_next (n : RegNum) (v : Nat) (s : State) : ∃ t, hostWrite n v s = .next t := by
  unfold hostWrite
  split
  · exact issue_next _ s
  all_goals exact ⟨_, rfl⟩

/-- What a reset during a command does. -/
theorem perform_resetDuring {w : CmdWord} {s t : State} (h : perform (.resetDuring w) s = .next t) :
    ∃ done, issue w s = .next done ∧ t = resetDuringState w s done := by
  obtain ⟨done, hdone⟩ := issue_next w s
  simp only [perform, hdone] at h
  cases h
  exact ⟨done, hdone, rfl⟩

/-- Everything a step can do: nothing when the host does nothing, else the host's next access. -/
theorem step_cases {s t : State} (h : step s = .next t) :
    (s.pending = [] ∧ t = s) ∨
    ∃ op rest, s.pending = op :: rest ∧ perform op (s.setPending rest) = .next t := by
  unfold step fetch at h
  cases hp : s.pending with
  | nil =>
    rw [hp] at h
    cases h
    exact .inl ⟨rfl, rfl⟩
  | cons op rest =>
    rw [hp] at h
    exact .inr ⟨op, rest, rfl, h⟩

theorem step_cons {s : State} {op : HostOp} {rest : List HostOp} (h : s.pending = op :: rest) :
    step s = perform op (s.setPending rest) := by
  simp only [step, fetch, h]

/-! ### Running steps -/

theorem runSteps_zero (s : State) : runSteps 0 s = .next s := rfl

theorem core_run_next (M : Host.Core) (k : Nat) {s t : M.State} (h : M.step s = .next t) :
    M.run (k + 1) s = M.run k t := by
  rw [Host.Core.run.eq_def]
  simp only [h]

theorem core_run_fault (M : Host.Core) (k : Nat) {s : M.State} {f : M.Fault} (h : M.step s = .fault f) :
    M.run (k + 1) s = .fault f := by
  rw [Host.Core.run.eq_def]
  simp only [h]

theorem core_run_refused (M : Host.Core) (k : Nat) {s : M.State} {r : M.Refusal} (h : M.step s = .refused r) :
    M.run (k + 1) s = .refused r := by
  rw [Host.Core.run.eq_def]
  simp only [h]

theorem runSteps_succ {k : Nat} {s t : State} (h : step s = .next t) : runSteps (k + 1) s = runSteps k t :=
  core_run_next Sys2Proof.core k h

theorem runSteps_eq (k : Nat) (s : State) :
    runSteps (k + 1) s =
      match step s with
      | .next t => runSteps k t
      | .fault f => .fault f
      | .refused r => .refused r := by
  cases h : step s with
  | next t => exact runSteps_succ h
  | fault f => exact core_run_fault Sys2Proof.core k h
  | refused r => exact core_run_refused Sys2Proof.core k h

/-- Running in two parts. -/
theorem runSteps_add {j k : Nat} {s t : State} (h : runSteps j s = .next t) :
    runSteps (j + k) s = runSteps k t := by
  induction j generalizing s with
  | zero =>
    rw [runSteps_zero] at h
    cases h
    rw [Nat.zero_add]
  | succ j ih =>
    rw [Nat.add_right_comm, runSteps_eq]
    rw [runSteps_eq] at h
    split at h
    · exact ih h
    · cases h
    · cases h

end Sys2Proof.Machine
end

