-- ==== Sys2Proof/Tests/Slice0.lean ====
section
/-! SUPPORT. Tests against the spec's own examples and vectors (each test names its source), the smoke test of
`WellFormed`, and for each statement with hypotheses a concrete state and operands that meet them. -/

namespace Sys2Proof.Machine.Tests

/-- The next state of an outcome; the reset state stands for a stop. -/
def after (o : Host.Outcome State Fault Refusal) : State :=
  match o with
  | .next t => t
  | .fault _ => State.reset
  | .refused _ => State.reset

/-- The reset state with the phase and the lanes given. -/
def inPhase (p : Phase) (A : Lanes) : State := { State.reset with phase := p, lanes := A }

/-- The lanes `A[i] = i + 1` of vectors T2, T7, T10. -/
def counting : Lanes := Vector.ofFn fun i => BitVec.ofNat 64 (i.val + 1)

/-- All lanes `v`. -/
def allLanes (v : Lane) : Lanes := Vector.replicate 25 v

/-- Memory `0x1000 … 0x1002` = `61 62 63`, and the operands of program 1. -/
def abc : State :=
  { State.reset with src := 0x1000, len := 3, dst := 0x2000, mem := Memory.writeBytes [] 0x1000 [0x61#8, 0x62#8, 0x63#8] }

/-! ### WellFormed: the ill-formed terms are refused -/

theorem test_wf_round_256 : (Instr.round 256).wf = false := by decide
theorem test_wf_iota_256 : (Instr.iota 256).wf = false := by decide
theorem test_wf_round_255 : (Instr.round 255).wf = true := by decide

/-! ### Decoding: words written out as `zero`, `arg`, `op` from rules R71 and R74 -/

theorem test_decode_nop : decode 0b0000000000000000_00000000_00000000#32 = .ok .nop := by decide
theorem test_decode_init : decode 0b0000000000000000_00000000_00000001#32 = .ok .init := by decide
theorem test_decode_absorb : decode 0b0000000000000000_00000000_00000010#32 = .ok .absorb := by decide
theorem test_decode_final : decode 0b0000000000000000_00000000_00000011#32 = .ok .final := by decide
theorem test_decode_squeeze : decode 0b0000000000000000_00000000_00000100#32 = .ok .squeeze := by decide
theorem test_decode_hash : decode 0b0000000000000000_00000000_00000101#32 = .ok .hash := by decide
theorem test_decode_ldst : decode 0b0000000000000000_00000000_00001000#32 = .ok .ldst := by decide
theorem test_decode_stst : decode 0b0000000000000000_00000000_00001001#32 = .ok .stst := by decide
theorem test_decode_permute : decode 0b0000000000000000_00000000_00010000#32 = .ok .permute := by decide
theorem test_decode_round : decode 0b0000000000000000_00010111_00010001#32 = .ok (.round 23) := by decide
theorem test_decode_theta : decode 0b0000000000000000_00000000_00011000#32 = .ok .theta := by decide
theorem test_decode_rho : decode 0b0000000000000000_00000000_00011001#32 = .ok .rho := by decide
theorem test_decode_pi : decode 0b0000000000000000_00000000_00011010#32 = .ok .pi := by decide
theorem test_decode_chi : decode 0b0000000000000000_00000000_00011011#32 = .ok .chi := by decide
theorem test_decode_iota : decode 0b0000000000000000_11111111_00011100#32 = .ok (.iota 255) := by decide

/-- E1, E2, E3 of the vectors: the three causes of rule R77. -/
theorem test_decode_illegal :
    decode 0x00000006#32 = .error .unknownOp ∧ decode 0x00010001#32 = .error .zeroFieldNotZero ∧
      decode 0x00000101#32 = .error .argFieldNotZero := by decide

/-- The words of rule R94's example. -/
theorem test_encode_iota : encode (.iota 23) = 0x0000171C#32 ∧ encode (.iota 24) = 0x0000181C#32 := by decide

theorem test_decodeTableWord : decodeTableWord 32 0x1711 = some (.round 23) ∧ decodeTableWord 32 6 = none := by decide

/-! ### The step mappings -/

/-- T1: the rows of THETA's result on `A[0] = 1` are all `(…, 1, 0, 0, 2)`, lane 0 keeping its 1. -/
theorem test_theta_one_bit :
    (after (exec .theta (inPhase .idle (zeroLanes.set 0 1)))).lanes.toList =
      [1, 1, 0, 0, 2, 0, 1, 0, 0, 2, 0, 1, 0, 0, 2, 0, 1, 0, 0, 2, 0, 1, 0, 0, 2] := by decide +kernel

/-- T2: the counting state. -/
theorem test_theta_counting :
    (after (exec .theta (inPhase .idle counting))).lanes.toList =
      [0x10, 0x0D, 0x1D, 0x1D, 0x1F, 0x17, 0x08, 0x16, 0x10, 0x10, 0x1A, 0x03, 0x13, 0x17, 0x15,
       0x01, 0x1E, 0x0C, 0x0A, 0x0E, 0x04, 0x19, 0x09, 0x01, 0x03] := by decide +kernel

/-- T5: rotation with wrap-around. -/
theorem test_rho_wraps :
    (after (exec .rho (inPhase .idle (allLanes 0x8000000000000001#64)))).lanes.toList =
      [0x8000000000000001, 0x0000000000000003, 0x6000000000000000, 0x0000000018000000, 0x000000000C000000,
       0x0000001800000000, 0x0000180000000000, 0x0000000000000060, 0x00C0000000000000, 0x0000000000180000,
       0x000000000000000C, 0x0000000000000600, 0x00000C0000000000, 0x0000000003000000, 0x000000C000000000,
       0x0000030000000000, 0x0000300000000000, 0x000000000000C000, 0x0000000000300000, 0x0000000000000180,
       0x0000000000060000, 0x0000000000000006, 0x3000000000000000, 0x0180000000000000, 0x0000000000006000] := by
  decide +kernel

/-- T6, in the lanes `A[i] = i + 1`. -/
theorem test_pi_counting :
    (after (exec .pi (inPhase .idle counting))).lanes.toList =
      [1, 7, 13, 19, 25, 4, 10, 11, 17, 23, 2, 8, 14, 20, 21, 5, 6, 12, 18, 24, 3, 9, 15, 16, 22] := by
  decide +kernel

/-- T7. -/
theorem test_chi_counting :
    (after (exec .chi (inPhase .idle counting))).lanes.toList =
      [0x00, 0x06, 0x02, 0x04, 0x07, 0x0E, 0x06, 0x0A, 0x0D, 0x0B, 0x0A, 0x0E, 0x0C, 0x0E, 0x0B,
       0x12, 0x10, 0x16, 0x13, 0x15, 0x14, 0x1E, 0x16, 0x1C, 0x1B] := by decide +kernel

/-- T9: `IOTA 23` on the zero state. -/
theorem test_iota_23 :
    (after (exec (.iota 23) State.reset)).lanes = zeroLanes.set 0 0x8000000080008008#64 := by decide +kernel

/-- E4: `IOTA 24` raises ERR_ARG with its own word in ECMD, and no lane changes. -/
theorem test_iota_24 :
    exec (.iota 24) State.reset = .next { State.reset with err := .arg, ecmd := 0x0000181C#32 } := rfl

/-! ### The round and the permutation -/

/-- T10: the five steps in order on the counting state, by `ROUND 0` (program 4). -/
theorem test_round_0_counting :
    (after (exec (.round 0) (inPhase .idle counting))).lanes.toList =
      [0x0000180000000011, 0x0000800001400000, 0x000098000000C000, 0x0000000001400010, 0x000080000000C000,
       0x00000001D00000D0, 0x0003C00001000000, 0x20000000000000D1, 0x0003C001D0000000, 0x2000000001000001,
       0x000000002E00001A, 0x0000000000000B80, 0x000000002E100000, 0x0000000000000E1A, 0x0000000000100580,
       0x00000000F8000C00, 0x0000017000060000, 0x0100000000000C00, 0x00000000F8060000, 0x0100017000000000,
       0x40000A8000000007, 0x0800000000000000, 0x00000A8000000064, 0x4000020000000003, 0x0800000000000064] := by
  decide +kernel

/-- E5b: `ROUND 24` raises ERR_ARG. -/
theorem test_round_24 :
    exec (.round 24) State.reset = .next { State.reset with err := .arg, ecmd := 0x00001811#32 } := rfl

/-- P1: PERMUTE on the zero state. -/
theorem test_permute_zero :
    (after (exec .permute State.reset)).lanes.toList =
      [0xF1258F7940E1DDE7, 0x84D5CCF933C0478A, 0xD598261EA65AA9EE, 0xBD1547306F80494D, 0x8B284E056253D057,
       0xFF97A42D7F8E6FD4, 0x90FEE5A0A44647C4, 0x8C5BDA0CD6192E76, 0xAD30A6F71B19059C, 0x30935AB7D08FFC64,
       0xEB5AA93F2317D635, 0xA9A6E6260D712103, 0x81A57C16DBCF555F, 0x43B831CD0347C826, 0x01F22F1A11A5569F,
       0x05E5635A21D9AE61, 0x64BEFEF28CC970F2, 0x613670957BC46611, 0xB87C5A554FD00ECB, 0x8C3EE88A1CCF32C8,
       0x940C7922AE3A2614, 0x1841F924A2C509E4, 0x16F53526E70465C2, 0x75F644E97F30A13B, 0xEAF1FF7B5CECA249] := by
  decide +kernel

/-- E7: PERMUTE in phase ABSORBING raises ERR_SEQ. -/
theorem test_permute_absorbing :
    exec .permute (inPhase .absorbing zeroLanes) =
      .next { inPhase .absorbing zeroLanes with err := .seq, ecmd := 0x00000010#32 } := rfl

/-! ### The sponge -/

/-- Rule R111's example: INIT zeroes filled lanes, and STATUS reads 1. -/
theorem test_init_zeroes :
    exec .init (inPhase .done counting) = .next (inPhase .absorbing zeroLanes) ∧
      hostRead 1#3 (inPhase .absorbing zeroLanes) = 1 := ⟨rfl, by decide⟩

/-- E6: ABSORB in phase IDLE raises ERR_SEQ. -/
theorem test_absorb_idle :
    exec .absorb State.reset = .next { State.reset with err := .seq, ecmd := 0x00000002#32 } := rfl

/-- Rule R115's example: the block of the tail `61 62 63` sets `A[0]` and `A[16]`. -/
theorem test_final_block :
    (xorBlock zeroLanes (padBlock (abc.mem.readBytes 0x1000 3))).toList =
      [0x0000000001636261, 0, 0, 0, 0, 0, 0, 0, 0, 0, 0, 0, 0, 0, 0, 0, 0x8000000000000000, 0, 0, 0, 0, 0, 0, 0, 0] := by
  decide +kernel

/-- E9a: FINAL with `LEN = 136` raises ERR_ARG. -/
theorem test_final_136 :
    exec .final { inPhase .absorbing zeroLanes with len := 136 } =
      .next { inPhase .absorbing zeroLanes with len := 136, err := .arg, ecmd := 0x00000003#32 } := rfl

/-- Rule R116's corner: for `r = 135` the last byte is `0x81`. -/
theorem test_pad_135 : (padBlock (List.replicate 135 0x00#8)).toList = List.replicate 135 0x00#8 ++ [0x81#8] := by
  decide +kernel

/-- SQUEEZE stores lanes 0 to 3 little-endian (rule R119); lane 4 is not stored. -/
theorem test_squeeze_stores :
    (after (exec .squeeze { inPhase .done counting with dst := 0x2000 })).mem =
      [(0x2000, 1#8), (0x2008, 2#8), (0x2010, 3#8), (0x2018, 4#8)] := by decide +kernel

/-- E11a: SQUEEZE with `DST + 32` past the top of the space raises ERR_BUS. -/
theorem test_squeeze_past_the_top :
    (after (exec .squeeze { inPhase .done counting with dst := 0xFFFFFFE1 })).err = .bus ∧
      (after (exec .squeeze { inPhase .done counting with dst := 0xFFFFFFE0 })).err = .noError := by decide +kernel

/-- S3, program 1: the digest of `61 62 63` by HASH. -/
theorem test_hash_abc :
    (after (exec .hash abc)).mem.readBytes 0x2000 32 =
      [0x4e, 0x03, 0x65, 0x7a, 0xea, 0x45, 0xa9, 0x4f, 0xc7, 0xd4, 0x7b, 0xa8, 0x26, 0xc8, 0xd6, 0x67,
       0xc0, 0xd1, 0xe6, 0xe3, 0x3a, 0x64, 0xa0, 0x36, 0xec, 0x44, 0xf5, 0x8f, 0xa1, 0x2d, 0x6c, 0x45] := by
  decide +kernel

/-- E10a: HASH with `SRC + LEN` past the top of the space raises ERR_BUS. -/
theorem test_hash_past_the_top :
    (after (exec .hash { State.reset with src := 0xFFFFFF00, len := 0x101 })).err = .bus := by decide +kernel

/-! ### State transfer and NOP -/

/-- M1, M2: byte `8i + j` becomes byte `j` of lane `i`, from an odd address. -/
theorem test_ldst_odd_address :
    ((after (exec .ldst { State.reset with
        src := 0x4001, mem := Memory.writeBytes [] 0x4001 ((List.range 200).map (BitVec.ofNat 8)) })).lanes.toList.map
      fun v => v.toNat) =
    (List.range 25).map fun i => 0x0706050403020100 + i * 0x0808080808080808 := by decide +kernel

/-- M4b: ERR_BUS at `SRC + 200 = 2^32 + 1`; M4a: none at `2^32`. -/
theorem test_ldst_top :
    (after (exec .ldst { State.reset with src := 0xFFFFFF39 })).err = .bus ∧
      (after (exec .ldst { State.reset with src := 0xFFFFFF38 })).err = .noError := by decide +kernel

/-- Rule R131's example: `A[0] = 0xF1258F7940E1DDE7` is stored `e7 dd e1 40 79 8f 25 f1`. -/
theorem test_stst_example :
    (after (exec .stst { inPhase .idle (zeroLanes.set 0 0xF1258F7940E1DDE7#64) with dst := 0x3000 })).mem =
      [(0x3000, 0xe7#8), (0x3001, 0xdd#8), (0x3002, 0xe1#8), (0x3003, 0x40#8), (0x3004, 0x79#8), (0x3005, 0x8f#8),
       (0x3006, 0x25#8), (0x3007, 0xf1#8)] := by decide +kernel

/-- M5b: STST in phase DONE raises ERR_SEQ. -/
theorem test_stst_done :
    exec .stst (inPhase .done counting) =
      .next { inPhase .done counting with err := .seq, ecmd := 0x00000009#32 } := rfl

/-- M6a: NOP in phase DONE changes nothing and STATUS reads 2. -/
theorem test_nop_done :
    exec .nop (inPhase .done counting) = .next (inPhase .done counting) ∧ hostRead 1#3 (inPhase .done counting) = 2 :=
  ⟨rfl, by decide⟩

/-! ### The ports, errors and reset -/

/-- E12a: the argument is checked before the phase. -/
theorem test_priority_arg_before_seq :
    issue 0x0000181C#32 (inPhase .done counting) =
      .next { inPhase .done counting with err := .arg, ecmd := 0x0000181C#32 } := rfl

/-- E12c: the word is checked before the phase. -/
theorem test_priority_illegal_before_seq :
    issue 0x00010002#32 State.reset = .next { State.reset with err := .illegal, ecmd := 0x00010002#32 } := rfl

/-- E13: after E1 every command is refused, STATUS stays `0x10` and ECMD 6. -/
theorem test_refusal :
    let s : State := { State.reset with err := .illegal, ecmd := 6#32 }
    issue 1#32 s = .next s ∧ issue 0x10#32 s = .next s ∧ hostRead 1#3 s = 0x10 ∧ hostRead 5#3 s = 6 :=
  ⟨rfl, rfl, by decide, by decide⟩

/-- E14: `wr SRC, 0x100000005` with `AW = 32`. -/
theorem test_write_is_truncated : hostWrite 2#3 0x100000005 State.reset = .next { State.reset with src := 5 } := rfl

/-- Program 5: STATUS after ABSORB in IDLE is `0x30`. -/
theorem test_status_seq : hostRead 1#3 { State.reset with err := .seq, ecmd := 2#32 } = 0x30 := by decide

/-- E15: with `MemOK` false everywhere a range of length 0 still passes, and SQUEEZE raises ERR_BUS. -/
theorem test_platform_denies_all :
    let p : Platform := { aw := 32, denied := [⟨0, 2 ^ 32, .read⟩, ⟨0, 2 ^ 32, .write⟩] }
    admission .final { inPhase .absorbing zeroLanes with src := 0x1234, platform := p } = .noError ∧
      admission .squeeze { inPhase .done zeroLanes with platform := p } = .bus := by decide +kernel

/-- The step runs the word that `withFetchWord` places. -/
theorem test_step_runs_the_placed_word :
    step (State.reset.withFetchWord 32 0x1811) =
      .next { State.reset with err := .arg, ecmd := 0x00001811#32 } := rfl

/-- A host store to an address that does not exist faults (rule R50). -/
theorem test_host_store_outside :
    step { State.reset with pending := [.memWrite (2 ^ 32) 1#8] } = .fault (.noSuchAddress (2 ^ 32)) := by rfl

/-! ### The script -/

theorem test_assemble_wr : assemble ['w', 'r', ' ', 'S', 'R', 'C', ',', ' ', '0', 'x', '1', '0', '0', '0'] =
    some [.wr .src 0x1000] := by decide

theorem test_assemble_cmd : assemble ['c', 'm', 'd', ' ', 'I', 'O', 'T', 'A', ' ', '2', '3'] =
    some [.cmd (.iota 23)] := by decide

theorem test_assemble_pseudo : assemble ['F', '1', '6', '0', '0', ' ', '7'] =
    some [.wr .src 7, .cmd .ldst, .cmd .permute, .wr .dst 7, .cmd .stst] := by decide

/-- Rules R72, R80: an index above 255 has no command word (log 17). -/
theorem test_assemble_round_steps_256 :
    assembleWords [['R', 'O', 'U', 'N', 'D', 'S', 'T', 'E', 'P', 'S'], ['2', '5', '6']] = none ∧
    assembleWords [['R', 'O', 'U', 'N', 'D', 'S', 'T', 'E', 'P', 'S'], ['2', '5', '5']] =
      some [.cmd .theta, .cmd .rho, .cmd .pi, .cmd .chi, .cmd (.iota 255)] := by decide

/-! ### Witnesses: a state and operands that meet the hypotheses of each statement -/

/-- Rule R58 on the platform of the reset state. -/
theorem admitted_of_le {base n : Nat} {k : AccessKind} (h : base + n ≤ 2 ^ 32) :
    Admitted Config.platform base n k := .inr ⟨h, fun a _ _ => by simp [memOK, Config.platform]⟩

theorem not_admitted_past_top {base n : Nat} {k : AccessKind} (hn : n ≠ 0) (h : 2 ^ 32 < base + n) :
    ¬ Admitted Config.platform base n k := by
  rintro (h0 | ⟨h1, -⟩)
  · exact hn h0
  · exact absurd h1 (Nat.not_le.2 h)

theorem witness_IllegalEncodingsRaise :
    State.reset.err = .noError ∧ IllegalWord (BitVec.ofNat 32 0x00010000) ∧ IllegalWord (BitVec.ofNat 32 0x06) ∧
      IllegalWord (BitVec.ofNat 32 0x0100) ∧ ¬ IllegalWord (BitVec.ofNat 32 0xFF1C) ∧
      ¬ IllegalWord (BitVec.ofNat 32 0x10000001B) := by
  unfold IllegalWord
  decide

theorem witness_StepRunsDecodedCommand :
    ({ State.reset with pending := [.write 0#3 0x18] } : State).pending = .write 0#3 0x18 :: [] ∧
      decode (BitVec.ofNat 32 0x18) = .ok .theta := by decide

/-- A state for each clause: ERR set, no command, `arg` at 24, `LEN` at 136, a wrong phase, a range one byte too
long, and a range that just fits. -/
theorem witness_DispatchChecksInOrder :
    ({ State.reset with err := .bus } : State).err ≠ .noError ∧
      State.reset.err = .noError ∧ decode 6#32 = .error .unknownOp ∧
      decode 0x1811#32 = .ok (.round 24) ∧ ArgError (.round 24) 0 ∧ ¬ ArgError (.round 23) 0 ∧
      ArgError .final 136 ∧ ¬ ArgError .final 135 ∧
      (¬ ArgError .absorb 0 ∧ State.reset.phase ∉ allowedPhases .absorb) ∧
      (¬ ArgError .ldst 0 ∧ State.reset.phase ∈ allowedPhases .ldst ∧
        BusError .ldst { State.reset with src := 2 ^ 32 - 199 }) ∧
      ¬ BusError .ldst { State.reset with src := 2 ^ 32 - 200 } := by
  refine ⟨by decide, rfl, by decide, by decide, ?_, ?_, ?_, ?_, ⟨?_, by decide⟩, ⟨?_, by decide, ?_⟩, ?_⟩
  · exact .inl ⟨24, .inl rfl, by omega⟩
  · simp [ArgError]
  · exact .inr ⟨rfl, by omega⟩
  · simp [ArgError]
  · simp [ArgError]
  · simp [ArgError]
  · exact .inr (.inr (.inr (.inr (.inl ⟨rfl, not_admitted_past_top (by decide) (by decide)⟩))))
  · simp only [BusError, reduceCtorEq, false_and, true_and, false_or, or_false, not_not]
    exact admitted_of_le (by decide)

theorem witness_ArgumentErrorsExactly :
    State.reset.err = .noError ∧
      exec (.round 24) State.reset = .next { State.reset with err := .arg, ecmd := 0x1811#32 } ∧
      exec (.round 23) State.reset = .next (State.reset.setLanes (keccakRound State.reset.lanes 23)) := ⟨rfl, rfl, rfl⟩

theorem witness_PhaseLegalityTable :
    State.reset.err = .noError ∧ ¬ ArgError .absorb State.reset.len ∧
      exec .absorb State.reset = .next { State.reset with err := .seq, ecmd := 2#32 } ∧
      exec .nop State.reset = .next State.reset := ⟨rfl, by simp [ArgError], rfl, rfl⟩

theorem witness_RangeAdmission :
    let s : State := { inPhase .done counting with dst := 0xFFFFFFE1 }
    s.err = .noError ∧ ¬ ArgError .squeeze s.len ∧ s.phase ∈ allowedPhases .squeeze ∧
      (∃ t, exec .squeeze s = .next t ∧ t.err = .bus) ∧
      ∃ t, exec .squeeze { s with dst := 0xFFFFFFE0 } = .next t ∧ t.err = .noError :=
  ⟨rfl, by simp [ArgError], by decide,
    ⟨_, (exec_next _ _).choose_spec, by
      have h := (exec_next .squeeze { inPhase .done counting with dst := 0xFFFFFFE1 }).choose_spec
      have h' := test_squeeze_past_the_top.1
      rw [h] at h'
      exact h'⟩,
    ⟨_, (exec_next _ _).choose_spec, by
      have h := (exec_next .squeeze { inPhase .done counting with dst := 0xFFFFFFE0 }).choose_spec
      have h' := test_squeeze_past_the_top.2
      rw [h] at h'
      exact h'⟩⟩

theorem witness_ErrorEntryWritesErrAndEcmdOnly :
    State.reset.err = .noError ∧
      issue 6#32 State.reset = .next { State.reset with err := .illegal, ecmd := 6#32 } ∧
      ({ State.reset with err := .illegal, ecmd := 6#32 } : State).err ≠ .noError := ⟨rfl, rfl, by decide⟩

theorem witness_RefusalWhileInError : ({ State.reset with err := .seq } : State).err ≠ .noError := by decide

/-- Each clause: a write to CMD while in error, a host store, a reset, and a reset during a command. -/
theorem witness_OnlyResetClearsTheError :
    let s : State := { State.reset with err := .seq, ecmd := 2#32 }
    s.err ≠ .noError ∧
      step { s with pending := [.write 0#3 1] } = .next s ∧
      step { s with pending := [.memWrite 0 1#8] } = .next { s with mem := [(0, 1#8)] } ∧
      step { s with pending := [.reset] } = .next State.reset ∧
      ∃ t, step { s with pending := [.resetDuring 1#32] } = .next t := ⟨by decide, rfl, rfl, rfl, _, rfl⟩

/-- The frames: a command that has its effect, one that is refused, one that raises. -/
theorem witness_CommandFrame :
    (∃ t, exec .theta (inPhase .idle counting) = .next t) ∧
      exec .theta { State.reset with err := .arg } = .next { State.reset with err := .arg } ∧
      exec (.iota 24) State.reset = .next { State.reset with err := .arg, ecmd := 0x181C#32 } :=
  ⟨exec_next _ _, rfl, rfl⟩

/-- A storing command of each size, the first and the last address outside, and one that stores nothing. -/
theorem witness_CommandsWriteOnlyTheOutputRange :
    let s : State := { inPhase .done counting with dst := 0x2000 }
    s.mem.wf = true ∧ (∃ t, exec .squeeze s = .next t) ∧ (0x1FFF < s.dst ∨ s.dst + 32 ≤ 0x1FFF) ∧
      (0x2020 < s.dst ∨ s.dst + 32 ≤ 0x2020) ∧ (∃ t, exec .stst { s with phase := .idle } = .next t) ∧
      (0x20C8 < s.dst ∨ s.dst + 200 ≤ 0x20C8) ∧ ∃ t, exec .nop s = .next t :=
  ⟨rfl, exec_next _ _, by decide, by decide, exec_next _ _, by decide, exec_next _ _⟩

theorem witness_LanesAndPhaseFrame :
    (∃ t, exec .squeeze (inPhase .done counting) = .next t) ∧
      ∃ t, exec (.iota 23) (inPhase .idle counting) = .next t := ⟨exec_next _ _, exec_next _ _⟩

theorem witness_LanesChangeOnlyByTheirWriters :
    ∃ s t : State, step s = .next t ∧ t.lanes ≠ s.lanes :=
  ⟨{ State.reset with pending := [.write 0#3 0x1C] }, State.reset.setLanes (iota State.reset.lanes 0), rfl,
    by decide +kernel⟩

theorem witness_PhaseChangesOnlyBySpongeCommands :
    ∃ s t : State, step s = .next t ∧ t.phase ≠ s.phase :=
  ⟨{ State.reset with pending := [.write 0#3 1] }, inPhase .absorbing zeroLanes, rfl, by decide⟩

/-- The idle state of the statements ThetaCompletes, RhoCompletes, PiCompletes, ChiCompletes, IotaCompletes,
RoundIsTheFiveSteps and PermuteIsTheTwentyFourRounds; both ends of the range of `arg`, and the first one above. -/
theorem witness_idle_commands :
    (inPhase .idle counting).err = .noError ∧ (inPhase .idle counting).phase = .idle ∧ 0 < 24 ∧ 23 < 24 ∧
      24 ≤ 24 := ⟨rfl, rfl, by decide, by decide, by decide⟩

theorem witness_PermuteLosesNoInformation :
    ∃ (B : Lanes) (t u : State), exec .permute (inPhase .idle counting) = .next t ∧
      exec .permute { inPhase .idle counting with lanes := B } = .next u ∧ t.lanes = u.lanes :=
  ⟨counting, (exec_next .permute (inPhase .idle counting)).choose,
    (exec_next .permute (inPhase .idle counting)).choose, (exec_next .permute (inPhase .idle counting)).choose_spec,
    (exec_next .permute (inPhase .idle counting)).choose_spec, rfl⟩

/-- Both ends of the range of `n`, and of `k`. -/
theorem witness_RotateLeftValueAndBits : (0 ≤ 63 ∧ 63 ≤ 63) ∧ (1 ≠ 0 ∧ 63 ≠ 0) ∧ 0 < 64 ∧ 63 < 64 := by decide

theorem witness_InitCompletes : (inPhase .done counting).err = .noError := rfl

theorem witness_AbsorbCompletes :
    let s : State := { inPhase .absorbing counting with src := 2 ^ 32 - 136 }
    s.err = .noError ∧ s.phase = .absorbing ∧ Admitted s.platform s.src 136 .read ∧
      (16 : Fin 25).val < 17 ∧ 17 ≤ (17 : Fin 25).val := ⟨rfl, rfl, admitted_of_le (by decide), by decide, by decide⟩

theorem witness_FinalCompletes :
    let s : State := { inPhase .absorbing counting with src := 0x1000, len := 135 }
    s.err = .noError ∧ s.phase = .absorbing ∧ s.len < 136 ∧ Admitted s.platform s.src s.len .read :=
  ⟨rfl, rfl, by decide, admitted_of_le (by decide)⟩

theorem witness_EmptyTailFlipsTwoBits :
    (inPhase .absorbing counting).err = .noError ∧ (inPhase .absorbing counting).phase = .absorbing ∧
      (inPhase .absorbing counting).len = 0 ∧ ([] : List Byte).length % 136 = 0 ∧
      (List.replicate 136 0#8).length % 136 = 0 := ⟨rfl, rfl, rfl, rfl, by simp⟩

/-- Tails of 0, 134 and 135 bytes: the ends of the clauses. -/
theorem witness_PaddedBlockBytes :
    ([] : List Byte).length ≤ 135 ∧ (List.replicate 134 1#8).length < 135 ∧ (List.replicate 135 1#8).length = 135 := by
  simp

theorem witness_SqueezeCompletes :
    let s : State := { inPhase .done counting with dst := 2 ^ 32 - 32 }
    s.mem.wf = true ∧ s.err = .noError ∧ s.phase = .done ∧ Admitted s.platform s.dst 32 .write :=
  ⟨rfl, rfl, rfl, admitted_of_le (by decide)⟩

theorem witness_HashCompletes :
    abc.mem.wf = true ∧ abc.err = .noError ∧ Admitted abc.platform abc.src abc.len .read ∧
      Admitted abc.platform abc.dst 32 .write :=
  ⟨by decide, rfl, admitted_of_le (by decide), admitted_of_le (by decide)⟩

/-- A message one byte short of a block. -/
theorem witness_MessageIsAbsorbedBlockByBlock : (List.replicate 135 0#8).length < 136 := by simp

theorem witness_HashEqualsPrimitiveCommands :
    abc.err = .noError ∧ abc.OperandsInv ∧ Admitted abc.platform abc.src abc.len .read ∧
      Admitted abc.platform abc.dst 32 .write :=
  ⟨rfl, ⟨by decide, by decide, by decide⟩, admitted_of_le (by decide), admitted_of_le (by decide)⟩

theorem witness_Keccak256ScriptWritesTheDigest :
    abc.mem.wf = true ∧ abc.err = .noError ∧ 0x1000 < 2 ^ abc.platform.aw ∧ 3 < 2 ^ abc.platform.aw ∧
      2 ^ 32 - 32 < 2 ^ abc.platform.aw ∧ Admitted abc.platform 0x1000 3 .read ∧
      Admitted abc.platform (2 ^ 32 - 32) 32 .write :=
  ⟨by decide, rfl, by decide, by decide, by decide, admitted_of_le (by decide), admitted_of_le (by decide)⟩

/-- Two states that hold the same message at the same place, with other lanes and in another phase. -/
theorem witness_DigestDependsOnTheMessageOnly :
    let s' : State := { abc with lanes := counting, phase := .done }
    abc.mem.wf = true ∧ s'.mem.wf = true ∧ abc.err = .noError ∧ s'.err = .noError ∧ abc.len = s'.len ∧
      (∀ k, k < abc.len → abc.mem.read (abc.src + k) = s'.mem.read (s'.src + k)) ∧
      (∃ t, exec .hash abc = .next t ∧ t.err = .noError) ∧ ∃ t, exec .hash s' = .next t ∧ t.err = .noError :=
  ⟨by decide, by decide, rfl, rfl, rfl, fun _ _ => rfl,
    ⟨_, exec_runs rfl rfl rfl (by
      simp only [ranges, List.mem_cons, List.not_mem_nil, or_false, forall_eq_or_imp, forall_eq]
      exact ⟨admitted_of_le (by decide), admitted_of_le (by decide)⟩), by rw [effectOf_err]; rfl⟩,
    ⟨_, exec_runs rfl rfl rfl (by
      simp only [ranges, List.mem_cons, List.not_mem_nil, or_false, forall_eq_or_imp, forall_eq]
      exact ⟨admitted_of_le (by decide), admitted_of_le (by decide)⟩), by rw [effectOf_err]; rfl⟩⟩

theorem witness_SqueezeDeliversADigest :
    let s : State := inPhase .done (absorbMessage [])
    s.mem.wf = true ∧ s.SpongeInv ∧ s.err = .noError ∧ s.phase = .done ∧ Admitted s.platform s.dst 32 .write :=
  ⟨rfl, ⟨fun h => (nomatch h), fun _ => ⟨[], rfl⟩⟩, rfl, rfl, admitted_of_le (by decide)⟩

theorem witness_LdstCompletes :
    let s : State := { inPhase .idle counting with src := 2 ^ 32 - 200 }
    s.err = .noError ∧ s.phase = .idle ∧ Admitted s.platform s.src 200 .read :=
  ⟨rfl, rfl, admitted_of_le (by decide)⟩

theorem witness_StstCompletes :
    let s : State := { inPhase .idle counting with dst := 2 ^ 32 - 200 }
    s.mem.wf = true ∧ s.err = .noError ∧ s.phase = .idle ∧ Admitted s.platform s.dst 200 .write :=
  ⟨rfl, rfl, rfl, admitted_of_le (by decide)⟩

theorem witness_StoreThenLoadRestoresTheState :
    let s : State := { inPhase .idle counting with dst := 0x3000 }
    s.mem.wf = true ∧ s.err = .noError ∧ s.phase = .idle ∧ Admitted s.platform s.dst 200 .write ∧
      Admitted s.platform s.dst 200 .read ∧ ∃ t, exec .stst s = .next t :=
  ⟨rfl, rfl, rfl, admitted_of_le (by decide), admitted_of_le (by decide), exec_next _ _⟩

theorem witness_NopHasNoEffect : opField 0x00000100#32 = 0#8 ∧ (0x00000100#32 : CmdWord) ≠ 0#32 ∧
    State.reset.err = .noError := by decide

theorem witness_F1600ScriptPermutesInPlace :
    State.reset.mem.wf = true ∧ State.reset.err = .noError ∧ State.reset.phase = .idle ∧
      0x3000 < 2 ^ State.reset.platform.aw ∧ Admitted State.reset.platform 0x3000 200 .read ∧
      Admitted State.reset.platform 0x3000 200 .write :=
  ⟨rfl, rfl, rfl, by decide, admitted_of_le (by decide), admitted_of_le (by decide)⟩

/-- Two states that agree on the input range of HASH only, and whose output ranges overlap it. -/
theorem witness_ReadsPrecedeWrites :
    let s : State := { abc with dst := 0x1001 }
    let m : Memory := s.mem ++ [(0x1003, 0xFF#8)]
    s.mem.wf = true ∧ m.wf = true ∧ m ≠ s.mem ∧
      (∀ k, k < inputLength .hash s → m.read (s.src + k) = s.mem.read (s.src + k)) ∧ s.err = .noError ∧
      ∃ t, exec .hash s = .next t :=
  ⟨by decide, by decide, by decide, by decide, rfl, exec_next _ _⟩

theorem witness_ControlDoesNotDependOnData :
    let s' : State := { abc with lanes := counting, mem := [] }
    abc.phase = s'.phase ∧ abc.err = s'.err ∧ abc.ecmd = s'.ecmd ∧ abc.src = s'.src ∧ abc.len = s'.len ∧
      abc.dst = s'.dst ∧ abc.platform = s'.platform ∧ (∃ t, exec .hash abc = .next t) ∧ ∃ t, exec .hash s' = .next t :=
  ⟨rfl, rfl, rfl, rfl, rfl, rfl, rfl, exec_next _ _, exec_next _ _⟩

theorem witness_ResetDuringACommand : ({ inPhase .done counting with dst := 0x2000 } : State).mem.wf = true := rfl

/-- The last address of the space. -/
theorem witness_HostMemoryAccesses : abc.mem.wf = true ∧ 2 ^ 32 - 1 < 2 ^ abc.platform.aw := by decide

theorem witness_IdleEngineKeepsItsState : State.reset.pending = [] := rfl

theorem witness_StepKeepsTheInvariant :
    let s : State := { inPhase .done (absorbMessage []) with err := .illegal, ecmd := 6#32 }
    s.Inv ∧ step s = .next s :=
  ⟨⟨⟨rfl, fun c hc => by cases hc⟩, ⟨by decide, by decide, by decide⟩, ⟨.unknownOp, by decide⟩,
    ⟨fun h => (nomatch h), fun _ => ⟨[], rfl⟩⟩⟩, rfl⟩

end Sys2Proof.Machine.Tests
end

namespace Sys2Proof.Machine

/-! ### The rotation of rule R11 -/

/-- A left shift by `n` that drops the bits at and above `w` is a multiple of `2 ^ n`. -/
theorem shiftLeft_mod_two_pow {n w : Nat} (hn : n ≤ w) (a : Nat) :
    a <<< n % 2 ^ w = (a % 2 ^ (w - n)) <<< n := by
  rw [Nat.shiftLeft_eq, Nat.shiftLeft_eq, ← Nat.pow_sub_mul_pow 2 hn, Nat.mul_mod_mul_right]

/-- The value clause of rule R11: the bits shifted up and the bits that wrap round do not overlap, so their
disjunction is their sum. -/
theorem toNat_rotl64 (a : Lane) {n : Nat} (hn : n < 64) :
    (rotl64 a n).toNat = a.toNat * 2 ^ n % 2 ^ 64 + a.toNat / 2 ^ (64 - n) := by
  have wrapped : a.toNat >>> (64 - n) < 2 ^ n := by
    rw [Nat.shiftRight_eq_div_pow, Nat.div_lt_iff_lt_mul (by positivity), ← Nat.pow_add,
      Nat.add_sub_cancel' hn.le]
    exact a.isLt
  calc (rotl64 a n).toNat
    _ = a.toNat <<< n % 2 ^ 64 ||| a.toNat >>> (64 - n) := by
      rw [rotl64, BitVec.toNat_rotateLeft, Nat.mod_eq_of_lt hn]
    _ = a.toNat <<< n % 2 ^ 64 + a.toNat >>> (64 - n) := by
      rw [shiftLeft_mod_two_pow hn.le, Nat.shiftLeft_add_eq_or_of_lt wrapped]
    _ = a.toNat * 2 ^ n % 2 ^ 64 + a.toNat / 2 ^ (64 - n) := by
      rw [Nat.shiftLeft_eq, Nat.shiftRight_eq_div_pow]

@[simp] theorem rotl64_zero (a : Lane) : rotl64 a 0 = a := by
  apply BitVec.eq_of_toNat_eq
  rw [toNat_rotl64 a (by decide)]
  simp [Nat.mod_eq_of_lt a.isLt, Nat.div_eq_of_lt a.isLt]

/-- The bit clause of rule R11. A bit below `64 - n` moves up by `n`; the top `n` bits wrap round to the bottom. -/
theorem getLsbD_rotl64 (a : Lane) {n k : Nat} (hn : n < 64) (hk : k < 64) :
    (rotl64 a n).getLsbD ((k + n) % 64) = a.getLsbD k := by
  rw [rotl64, BitVec.getLsbD_rotateLeft_of_le hn]
  by_cases stays : k + n < 64
  · rw [Nat.mod_eq_of_lt stays]
    simp [stays]
  · have wraps : (k + n) % 64 = k + n - 64 := by omega
    have below : k + n - 64 < n := by omega
    have source : 64 - n + (k + n - 64) = k := by omega
    simp [wraps, below, source]

/-- Settles O27, clause by clause from the lemmas about `rotl64`. -/
theorem rotateLeftValueAndBits : Obligations.RotateLeftValueAndBits := by
  unfold Obligations.RotateLeftValueAndBits
  intro a n hn
  have hn : n < 64 := by omega
  exact ⟨rotl64_zero a, fun _ => toNat_rotl64 a hn, fun _ hk => getLsbD_rotl64 a hn hk⟩

end Sys2Proof.Machine

namespace Sys2Proof

/-! ### The encoding of a decoded command (rules R71, R75) -/

/-- A word is its three fields, one above the other (rule R71). -/
theorem append_fields (w : CmdWord) :
    (zeroField w ++ argField w ++ opField w : BitVec (16 + 8 + 8)) = w := by
  apply BitVec.eq_of_getLsbD_eq
  intro k hk
  simp only [zeroField, argField, opField, BitVec.getLsbD_append, BitVec.getLsbD_extractLsb']
  by_cases hop : k < 8
  · simp [hop]
  · by_cases harg : k - 8 < 8
    · simp [hop, harg, show 8 + (k - 8) = k by omega]
    · simp [hop, harg, show k - 8 - 8 < 16 by omega, show 16 + (k - 8 - 8) = k by omega]

/-- A word is the command word of `i` when its fields are those of `i`. -/
theorem encode_eq_of_fields {i : Instr} {w : CmdWord} (hzero : zeroField w = 0#16)
    (harg : argField w = argOf i) (hop : opField w = opcode i) : encode i = w := by
  rw [encode, ← hzero, ← harg, ← hop, append_fields]

/-- The word that a format Z row selects is the row's own. -/
theorem rowZ_selects {word w : CmdWord} {i : Instr} (h : (rowZ word i).selects w = true) : w = word := by
  have hmask : w &&& 0xFFFFFFFF#32 = word := by simpa [OpcodeRow.selects, rowZ] using h
  rwa [show 0xFFFFFFFF#32 = BitVec.allOnes 32 from rfl, BitVec.and_allOnes] at hmask

theorem zeroField_and (w v : CmdWord) : zeroField (w &&& v) = zeroField w &&& zeroField v :=
  BitVec.extractLsb'_and

theorem opField_and (w v : CmdWord) : opField (w &&& v) = opField w &&& opField v :=
  BitVec.extractLsb'_and

/-- A word that a format I row selects has the row's `zero` and `op`. -/
theorem rowI_selects {word w : CmdWord} {make : Nat → Instr} (h : (rowI word make).selects w = true) :
    zeroField w = zeroField word ∧ opField w = opField word := by
  have hmask : w &&& 0xFFFF00FF#32 = word := by simpa [OpcodeRow.selects, rowI] using h
  have hzeroMask : zeroField 0xFFFF00FF#32 = BitVec.allOnes 16 := rfl
  have hopMask : opField 0xFFFF00FF#32 = BitVec.allOnes 8 := rfl
  rw [← hmask, zeroField_and, opField_and, hzeroMask, hopMask, BitVec.and_allOnes, BitVec.and_allOnes]
  exact ⟨rfl, rfl⟩

/-- A format Z row whose word is the command word of its command. -/
theorem encode_of_rowZ_selects {word : CmdWord} {i : Instr} (hword : encode i = word) (w : CmdWord)
    (h : (rowZ word i).selects w = true) : encode ((rowZ word i).make (argField w)) = w := by
  rw [rowZ_selects h]
  exact hword

/-- A format I row whose word has the opcode of its commands and zeros above: `arg` comes back from the field. -/
theorem encode_of_rowI_selects {word : CmdWord} {make : Nat → Instr} (hzero : zeroField word = 0#16)
    (harg : ∀ n, argOf (make n) = BitVec.ofNat 8 n) (hop : ∀ n, opcode (make n) = opField word) (w : CmdWord)
    (h : (rowI word make).selects w = true) : encode ((rowI word make).make (argField w)) = w := by
  obtain ⟨hz, ho⟩ := rowI_selects h
  exact encode_eq_of_fields (hz.trans hzero) (by simp [rowI, harg]) (by simp [rowI, ho, hop])

/-- Every row of the table gives back the word that selected it (rules R71, R74, R75). -/
theorem encode_of_selects :
    ∀ row ∈ opcodeTable, ∀ w, row.selects w = true → encode (row.make (argField w)) = w := by
  simp only [opcodeTable, List.forall_mem_cons]
  exact ⟨encode_of_rowZ_selects rfl, encode_of_rowZ_selects rfl, encode_of_rowZ_selects rfl,
    encode_of_rowZ_selects rfl, encode_of_rowZ_selects rfl, encode_of_rowZ_selects rfl,
    encode_of_rowZ_selects rfl, encode_of_rowZ_selects rfl, encode_of_rowZ_selects rfl,
    encode_of_rowI_selects rfl (fun _ => rfl) (fun _ => rfl), encode_of_rowZ_selects rfl,
    encode_of_rowZ_selects rfl, encode_of_rowZ_selects rfl, encode_of_rowZ_selects rfl,
    encode_of_rowI_selects rfl (fun _ => rfl) (fun _ => rfl), List.forall_mem_nil _⟩

/-- The command word of a decoded command is the word it was decoded from. -/
theorem encode_of_decode {w : CmdWord} {i : Instr} (h : decode w = .ok i) : encode i = w := by
  obtain ⟨row, hrow, hsel, rfl⟩ := decode_ok h
  exact encode_of_selects row hrow w hsel

end Sys2Proof

namespace Sys2Proof.Machine

/-! ### Which addresses memory lists -/

/-- A byte that does not read as the filling byte is listed. -/
theorem Memory.exists_cell_of_read_ne {m : Memory} {a : Nat} (h : m.read a ≠ memFill) : ∃ c ∈ m, c.1 = a := by
  induction m with
  | nil => exact absurd rfl h
  | cons c rest ih =>
    by_cases hc : c.1 = a
    · exact ⟨c, List.mem_cons_self, hc⟩
    · rw [Memory.read_cons, if_neg hc] at h
      obtain ⟨d, hd, hda⟩ := ih h
      exact ⟨d, List.mem_cons_of_mem _ hd, hda⟩

/-- After a run of bytes has been stored, a listed address was listed before or lies in the run. -/
theorem Memory.writeBytes_keys {m : Memory} {base : Nat} {bs : List Byte} {c : Host.Cell}
    (hc : c ∈ m.writeBytes base bs) : c ∈ m ∨ (base ≤ c.1 ∧ c.1 < base + bs.length) := by
  induction bs generalizing m base with
  | nil => exact .inl hc
  | cons b rest ih =>
    rw [List.length_cons]
    obtain hc | hc := ih hc
    · obtain hc | ⟨hc, -⟩ := Memory.write_keys hc
      · exact .inl hc
      · exact .inr (by omega)
    · exact .inr (by omega)

/-- After bytes have been copied from `new`, a listed address was listed before or is listed in `new`. -/
theorem Memory.copyFrom_keys {m new : Memory} {addrs : List Nat} {c : Host.Cell}
    (hc : c ∈ m.copyFrom new addrs) : c ∈ m ∨ ∃ d ∈ new, d.1 = c.1 := by
  induction addrs generalizing m with
  | nil => exact .inl hc
  | cons a rest ih =>
    obtain hc | hc := ih hc
    · obtain hc | ⟨rfl, hread⟩ := Memory.write_keys hc
      · exact .inl hc
      · exact .inr (Memory.exists_cell_of_read_ne hread)
    · exact .inr hc

/-! ### What a refusal says about the command, and what a command changes -/

/-- The error of a command that is not admitted, with the check that failed (rule R76 steps 3 to 5). -/
theorem admission_error_cases {i : Instr} {s : State} (h : admission i s ≠ .noError) :
    (admission i s = .arg ∧ argOK i s.len = false) ∨ (admission i s = .seq ∧ allowed i s.phase = false) ∨
      (admission i s = .bus ∧ ∃ r ∈ ranges i s, rangeOK s.platform r = false) := by
  unfold admission at h ⊢
  split_ifs at h ⊢ with harg hphase hranges
  · exact .inl ⟨rfl, harg⟩
  · exact .inr (.inl ⟨rfl, hphase⟩)
  · exact .inr (.inr ⟨rfl, by simpa using hranges⟩)
  · exact absurd rfl h

/-- Only FINAL, ROUND and IOTA have an argument that can be refused (rule R79). -/
theorem argOK_eq_false {i : Instr} {len : Nat} (h : argOK i len = false) :
    i = .final ∨ ∃ r, 24 ≤ r ∧ (i = .round r ∨ i = .iota r) := by
  cases i <;> simp_all [argOK]

/-- Only six commands name a range of memory (rule R51). -/
theorem accessesMemory_of_mem_ranges {i : Instr} {s : State} {r : MemRange} (h : r ∈ ranges i s) :
    i = .absorb ∨ i = .final ∨ i = .squeeze ∨ i = .hash ∨ i = .ldst ∨ i = .stst := by
  cases i <;> simp_all [ranges]

/-- The memory after a command: as before, or with bytes stored over the whole output range (rule R51). -/
theorem effectOf_mem_cases (i : Instr) (s : State) :
    (effectOf i s).mem = s.mem ∨
      ∃ bs : List Byte, (effectOf i s).mem = s.mem.writeBytes s.dst bs ∧
        ⟨s.dst, bs.length, .write⟩ ∈ ranges i s := by
  by_cases hw : i ≠ .squeeze ∧ i ≠ .hash ∧ i ≠ .stst
  · exact .inl (effectOf_mem_unchanged s i hw)
  · obtain rfl | rfl | rfl : i = .squeeze ∨ i = .hash ∨ i = .stst := by tauto
    · exact .inr ⟨_, effectOf_squeeze_mem s, by simp [ranges]⟩
    · exact .inr ⟨_, effectOf_hash_mem s, by simp [ranges]⟩
    · exact .inr ⟨_, effectOf_stst_mem s, by simp [ranges]⟩

/-- NOP, SQUEEZE and STST leave the lanes as they are (rules R119, R131, R132). -/
theorem effectOf_lanes_unchanged {i : Instr} (h : i = .nop ∨ i = .squeeze ∨ i = .stst) (s : State) :
    (effectOf i s).lanes = s.lanes := by
  obtain rfl | rfl | rfl := h <;> simp [effectOf]

/-- IOTA changes no lane but lane 0 (rule R94). -/
theorem effectOf_iota_lane (r : Nat) (s : State) {k : Fin 25} (hk : k.val ≠ 0) :
    (effectOf (.iota r) s).lanes[k] = s.lanes[k] := by
  simp only [effectOf, State.setLanes_lanes, iota_lane, if_neg hk]

/-- Only INIT, FINAL, SQUEEZE and HASH change the phase (rule R32). -/
theorem effectOf_phase_unchanged {i : Instr} (h : i ≠ .init ∧ i ≠ .final ∧ i ≠ .squeeze ∧ i ≠ .hash) (s : State) :
    (effectOf i s).phase = s.phase := by
  obtain ⟨hinit, hfinal, hsqueeze, hhash⟩ := h
  cases i <;> simp_all [effectOf]

/-- What neither the error entry nor the command's effect changes, the command leaves unchanged. -/
theorem exec_unchanged {α : Type} (field : State → α) {i : Instr} {s t : State} (h : exec i s = .next t)
    (hraise : ∀ c w, field (s.raiseError c w) = field s) (heffect : field (effectOf i s) = field s) :
    field t = field s := by
  obtain ⟨-, rfl⟩ | ⟨-, -, rfl⟩ | ⟨-, -, rfl⟩ := exec_cases h
  · rfl
  · exact heffect
  · exact hraise _ _

/-- A command issued leaves the platform's parameters as they are. -/
theorem issue_platform {w : CmdWord} {s t : State} (h : issue w s = .next t) : t.platform = s.platform := by
  obtain ⟨-, rfl⟩ | ⟨-, -, rfl⟩ | ⟨-, i, -, hexec⟩ := issue_cases h
  · rfl
  · rfl
  · exact exec_unchanged State.platform hexec (fun _ _ => rfl) (effectOf_platform s i)

/-- What a store of the host does (rule R50). -/
theorem perform_memWrite {a : Nat} {v : Byte} {s t : State} (h : perform (.memWrite a v) s = .next t) :
    a < 2 ^ s.platform.aw ∧ t = s.setMem (s.mem.write a v) := by
  rw [perform] at h
  split at h <;> cases h
  exact ⟨‹_›, rfl⟩

/-- What a load of the host does: the engine is not touched. -/
theorem perform_memRead {a : Nat} {s t : State} (h : perform (.memRead a) s = .next t) :
    t = s.reply (s.mem.read a).toNat := by
  rw [perform] at h
  split at h <;> cases h
  rfl

/-! ### The message behind the absorbed blocks (rules R114, R121) -/

/-- A full block in front of a message is its first full block. -/
theorem fullBlocks_block_append (bk : Block) (m : List Byte) :
    fullBlocks (bk.toList ++ m) = bk :: fullBlocks m := by
  have hlen : (bk.toList ++ m).length / 136 = m.length / 136 + 1 := by
    rw [List.length_append, Vector.length_toList]
    omega
  rw [fullBlocks, hlen, List.range_succ_eq_map, List.map_cons, List.map_map, fullBlocks]
  refine congrArg₂ List.cons ?_ ?_
  · apply Vector.ext
    intro j hj
    simp [List.getD, List.getElem?_append_left]
  · refine List.map_congr_left fun b _ => ?_
    apply Vector.ext
    intro j hj
    have hpos : 136 * (b + 1) + j = 136 + (136 * b + j) := by omega
    simp [List.getD, hpos, List.getElem?_append_right]

/-- A full block in front of a message leaves its tail as it is. -/
theorem messageTail_block_append (bk : Block) (m : List Byte) :
    messageTail (bk.toList ++ m) = messageTail m := by
  have hlen : 136 * ((bk.toList ++ m).length / 136) = bk.toList.length + 136 * (m.length / 136) := by
    rw [List.length_append, Vector.length_toList]
    omega
  rw [messageTail, hlen, List.drop_length_add_append, messageTail]

/-- Any blocks and any short tail are what some message is absorbed as. -/
theorem exists_paddedBlocks (bs : List Block) {tail : List Byte} (htail : tail.length < 136) :
    ∃ m, paddedBlocks m = bs ++ [padBlock tail] := by
  induction bs with
  | nil =>
    have hdiv : tail.length / 136 = 0 := Nat.div_eq_of_lt htail
    exact ⟨tail, by simp [paddedBlocks, fullBlocks, messageTail, hdiv]⟩
  | cons bk bs ih =>
    obtain ⟨m, hm⟩ := ih
    exact ⟨bk.toList ++ m, by
      rw [paddedBlocks, fullBlocks_block_append, messageTail_block_append, List.cons_append, ← paddedBlocks, hm,
        List.cons_append]⟩

theorem absorbedBlocks_zeroLanes : AbsorbedBlocks zeroLanes := ⟨[], rfl⟩

/-- One more block (rule R113). -/
theorem AbsorbedBlocks.append_block {A : Lanes} (h : AbsorbedBlocks A) (bk : Block) :
    AbsorbedBlocks (absorbBlock A bk) := by
  obtain ⟨bs, rfl⟩ := h
  exact ⟨bs ++ [bk], by rw [List.foldl_append, List.foldl_cons, List.foldl_nil]⟩

/-- The padded tail closes a message (rules R115, R121). -/
theorem AbsorbedBlocks.append_tail {A : Lanes} (h : AbsorbedBlocks A) {tail : List Byte}
    (htail : tail.length < 136) : AbsorbedMessage (absorbBlock A (padBlock tail)) := by
  obtain ⟨bs, rfl⟩ := h
  obtain ⟨m, hm⟩ := exists_paddedBlocks bs htail
  exact ⟨m, by rw [absorbMessage, hm, List.foldl_append, List.foldl_cons, List.foldl_nil]⟩

/-! ### The invariant, part by part -/

/-- With no error recorded the record says that ECMD is 0. -/
theorem State.errorRecordInv_iff_of_noError {s : State} (herr : s.err = .noError) :
    s.ErrorRecordInv ↔ s.ecmd = 0#32 := by
  simp [State.ErrorRecordInv, herr]

/-- In IDLE nothing is said of the lanes. -/
theorem State.spongeInv_of_idle {s : State} (h : s.phase = .idle) : s.SpongeInv := by
  simp [State.SpongeInv, h]

/-- Reset establishes all of the invariant but what it does not touch, memory (rules R42, R170). -/
theorem State.inv_applyReset {s : State} (hmem : s.MemoryInv) : s.applyReset.Inv :=
  ⟨hmem, ⟨by simp, by simp, by simp⟩, rfl, State.spongeInv_of_idle rfl⟩

/-- The host's store in the address space keeps memory canonical (rule R50). -/
theorem State.MemoryInv.setMem_write {s : State} (h : s.MemoryInv) {a : Nat} (ha : a < 2 ^ s.platform.aw)
    (v : Byte) : (s.setMem (s.mem.write a v)).MemoryInv := by
  obtain ⟨hwf, hlt⟩ := h
  refine ⟨Memory.wf_write hwf a v, fun c hc => ?_⟩
  obtain hc | ⟨rfl, -⟩ := Memory.write_keys hc
  · exact hlt c hc
  · exact ha

/-- Bytes copied from a memory inside the address space (rule R171). -/
theorem State.MemoryInv.setMem_copyFrom {s done : State} (h : s.MemoryInv) (hdone : done.MemoryInv)
    (hplatform : done.platform = s.platform) (addrs : List Nat) :
    (s.setMem (s.mem.copyFrom done.mem addrs)).MemoryInv := by
  obtain ⟨hwf, hlt⟩ := h
  obtain ⟨-, hdoneLt⟩ := hdone
  refine ⟨Memory.wf_copyFrom hwf done.mem addrs, fun c hc => ?_⟩
  obtain hc | ⟨d, hd, hdc⟩ := Memory.copyFrom_keys hc
  · exact hlt c hc
  · simpa [hdc, hplatform] using hdoneLt d hd

/-- An admitted command stores inside the address space only (rule R58). -/
theorem State.MemoryInv.after_effectOf {i : Instr} {s : State} (h : s.MemoryInv)
    (hadm : admission i s = .noError) : (effectOf i s).MemoryInv := by
  obtain ⟨-, -, hranges⟩ := (admission_noError_iff i s).1 hadm
  obtain ⟨hwf, hlt⟩ := h
  rw [State.MemoryInv, effectOf_platform]
  obtain hmem | ⟨bs, hmem, hrange⟩ := effectOf_mem_cases i s
  · rw [hmem]
    exact ⟨hwf, hlt⟩
  · rw [hmem]
    refine ⟨Memory.wf_writeBytes hwf s.dst bs, fun c hc => ?_⟩
    obtain hc | ⟨hlo, hhi⟩ := Memory.writeBytes_keys hc
    · exact hlt c hc
    · obtain hempty | ⟨htop, -⟩ := (rangeOK_iff _ _).1 (hranges _ hrange)
      · simp only at hempty
        omega
      · exact Nat.lt_of_lt_of_le hhi htop

/-- The error entry records a word that raises that error, in the phase that refused it (rules R38, R144). -/
theorem State.errorRecordInv_raiseError_admission {i : Instr} {s : State} (hdec : decode (encode i) = .ok i)
    (hadm : admission i s ≠ .noError) : (s.raiseError (admission i s) (encode i)).ErrorRecordInv := by
  obtain ⟨hcode, harg⟩ | ⟨hcode, hphase⟩ | ⟨hcode, r, hr, -⟩ := admission_error_cases hadm
  · rw [hcode]
    exact ⟨i, hdec, argOK_eq_false harg⟩
  · rw [hcode]
    exact ⟨i, hdec, hphase⟩
  · rw [hcode]
    exact ⟨i, hdec, accessesMemory_of_mem_ranges hr⟩

/-- An admitted command keeps what PHASE says about the lanes (rules R22, R32): INIT starts a digest, ABSORB and
FINAL carry it on, SQUEEZE and HASH end it, and the raw commands run in IDLE only. -/
theorem State.SpongeInv.after_effectOf {i : Instr} {s : State} (h : s.SpongeInv)
    (hadm : admission i s = .noError) : (effectOf i s).SpongeInv := by
  obtain ⟨harg, hphase, -⟩ := (admission_noError_iff i s).1 hadm
  cases i with
  | nop => exact h
  | stst =>
    simp only [State.SpongeInv, effectOf, State.setMem_lanes, State.setMem_phase]
    exact h
  | init =>
    simp only [State.SpongeInv, effectOf, State.setPhase_lanes, State.setLanes_lanes, State.setPhase_phase]
    exact ⟨fun _ => absorbedBlocks_zeroLanes, nofun⟩
  | absorb =>
    have hphase : s.phase = .absorbing := by simpa [allowed] using hphase
    simp only [State.SpongeInv, effectOf, State.setLanes_lanes, State.setLanes_phase]
    exact ⟨fun _ => (h.1 hphase).append_block _, fun hdone => absurd (hphase.symm.trans hdone) nofun⟩
  | final =>
    have hphase : s.phase = .absorbing := by simpa [allowed] using hphase
    have hlen : s.len < 136 := by simpa [argOK] using harg
    simp only [State.SpongeInv, effectOf, State.setPhase_lanes, State.setLanes_lanes, State.setPhase_phase]
    exact ⟨nofun, fun _ => (h.1 hphase).append_tail (by simpa using hlen)⟩
  | squeeze | hash => exact State.spongeInv_of_idle (by simp [effectOf])
  | ldst | permute | round | theta | rho | pi | chi | iota =>
    exact State.spongeInv_of_idle (by simpa [effectOf, allowed] using hphase)

/-! ### The invariant through the layers of a step -/

/-- A decoded command keeps the invariant. -/
theorem State.Inv.of_exec {i : Instr} {s t : State} (h : s.Inv) (hdec : decode (encode i) = .ok i)
    (hexec : exec i s = .next t) : t.Inv := by
  obtain ⟨-, rfl⟩ | ⟨herr, hadm, rfl⟩ | ⟨-, hadm, rfl⟩ := exec_cases hexec
  · exact h
  · obtain ⟨hmem, hop, hrec, hsponge⟩ := h
    refine ⟨hmem.after_effectOf hadm, ?_, ?_, hsponge.after_effectOf hadm⟩
    · simpa [State.OperandsInv] using hop
    · rw [State.errorRecordInv_iff_of_noError (by simpa using herr), effectOf_ecmd]
      exact (State.errorRecordInv_iff_of_noError herr).1 hrec
  · obtain ⟨hmem, hop, -, hsponge⟩ := h
    exact ⟨hmem, hop, State.errorRecordInv_raiseError_admission hdec hadm, hsponge⟩

/-- Issuing any word keeps the invariant. -/
theorem State.Inv.of_issue {w : CmdWord} {s t : State} (h : s.Inv) (hissue : issue w s = .next t) : t.Inv := by
  obtain ⟨-, rfl⟩ | ⟨-, hillegal, rfl⟩ | ⟨-, i, hdec, hexec⟩ := issue_cases hissue
  · exact h
  · obtain ⟨hmem, hop, -, hsponge⟩ := h
    exact ⟨hmem, hop, hillegal, hsponge⟩
  · exact h.of_exec (by rw [encode_of_decode hdec, hdec]) hexec

/-- A write to any register keeps the invariant: the operand registers are stored modulo `2^AW`. -/
theorem State.Inv.of_hostWrite {n : RegNum} {v : Nat} {s t : State} (h : s.Inv)
    (hwrite : hostWrite n v s = .next t) : t.Inv := by
  have hv : v % 2 ^ s.platform.aw < 2 ^ s.platform.aw := Nat.mod_lt _ (by positivity)
  have ⟨hmem, ⟨hsrc, hlen, hdst⟩, hrec, hsponge⟩ := h
  obtain ⟨-, hissue⟩ | rfl | rfl | rfl | rfl := hostWrite_cases hwrite
  · exact h.of_issue hissue
  · exact h
  · exact ⟨hmem, ⟨hv, hlen, hdst⟩, hrec, hsponge⟩
  · exact ⟨hmem, ⟨hsrc, hv, hdst⟩, hrec, hsponge⟩
  · exact ⟨hmem, ⟨hsrc, hlen, hv⟩, hrec, hsponge⟩

/-- A reset during a command keeps the invariant, whichever bytes have landed (rule R171). -/
theorem State.Inv.of_resetDuring {w : CmdWord} {s done : State} (h : s.Inv) (hissue : issue w s = .next done) :
    (resetDuringState w s done).Inv :=
  State.inv_applyReset (h.1.setMem_copyFrom (h.of_issue hissue).1 (issue_platform hissue) _)

/-- One access of the host keeps the invariant. -/
theorem State.Inv.of_perform {op : HostOp} {s t : State} (h : s.Inv) (hperform : perform op s = .next t) : t.Inv := by
  cases op with
  | write n v => exact h.of_hostWrite hperform
  | read n =>
    cases hperform
    exact h
  | memWrite a v =>
    obtain ⟨ha, rfl⟩ := perform_memWrite hperform
    obtain ⟨hmem, hrest⟩ := h
    exact ⟨hmem.setMem_write ha v, hrest⟩
  | memRead a =>
    obtain rfl := perform_memRead hperform
    exact h
  | reset =>
    cases hperform
    exact State.inv_applyReset h.1
  | resetDuring w =>
    obtain ⟨done, hissue, rfl⟩ := perform_resetDuring hperform
    exact h.of_resetDuring hissue

/-- Settles O55: the invariant does not speak of the queue, and each access of the host keeps it. -/
theorem stepKeepsTheInvariant : Obligations.StepKeepsTheInvariant := by
  unfold Obligations.StepKeepsTheInvariant
  intro s t h hstep
  obtain ⟨-, rfl⟩ | ⟨op, rest, -, hperform⟩ := step_cases hstep
  · exact h
  · have hfetched : (s.setPending rest).Inv := h
    exact hfetched.of_perform hperform

/-- Settles O56: the reset state is the reset of itself, and the empty memory is canonical. -/
theorem resetSatisfiesTheInvariant : Obligations.ResetSatisfiesTheInvariant :=
  State.inv_applyReset (s := State.reset) ⟨Memory.wf_nil, nofun⟩

/-! ### The frames of a command and of a step -/

/-- Settles O12, from the three things a command can do. -/
theorem commandFrame : Obligations.CommandFrame := by
  unfold Obligations.CommandFrame
  intro i s t h
  obtain ⟨-, rfl⟩ | ⟨-, -, rfl⟩ | ⟨herr, -, rfl⟩ := exec_cases h
  · exact ⟨rfl, rfl, rfl, rfl, rfl, rfl, rfl, .inl ⟨rfl, rfl⟩⟩
  · simp
  · exact ⟨rfl, rfl, rfl, rfl, rfl, rfl, rfl, .inr ⟨herr, rfl⟩⟩

/-- Settles O14: neither the error entry nor the effect of the named commands changes these fields. -/
theorem lanesAndPhaseFrame : Obligations.LanesAndPhaseFrame := by
  unfold Obligations.LanesAndPhaseFrame
  intro i s t h
  refine ⟨fun hi => ?_, fun r hi k hk => ?_, fun hi => ?_⟩
  · exact exec_unchanged State.lanes h (fun _ _ => rfl) (effectOf_lanes_unchanged hi s)
  · subst hi
    exact exec_unchanged (fun s => s.lanes[k]) h (fun _ _ => rfl) (effectOf_iota_lane r s hk)
  · exact exec_unchanged State.phase h (fun _ _ => rfl) (effectOf_phase_unchanged hi s)

/-- What a step can do to the lanes and to PHASE: nothing, a reset, or a command written to CMD (rules R22, R32). -/
theorem step_lanes_phase_cases {s t : State} (h : step s = .next t) :
    (t.lanes = s.lanes ∧ t.phase = s.phase) ∨
    (t.phase = .idle ∧
      (s.pending.head? = some .reset ∨ ∃ w, s.pending.head? = some (.resetDuring w))) ∨
    ∃ v rest i, s.pending = .write 0#3 v :: rest ∧ decode (BitVec.ofNat 32 v) = .ok i ∧
      exec i (s.setPending rest) = .next t := by
  obtain ⟨-, rfl⟩ | ⟨op, rest, hpending, hperform⟩ := step_cases h
  · exact .inl ⟨rfl, rfl⟩
  cases op with
  | write n v =>
    obtain ⟨rfl, hissue⟩ | rfl | rfl | rfl | rfl := hostWrite_cases hperform
    · obtain ⟨-, rfl⟩ | ⟨-, -, rfl⟩ | ⟨-, i, hdec, hexec⟩ := issue_cases hissue
      · exact .inl ⟨rfl, rfl⟩
      · exact .inl ⟨rfl, rfl⟩
      · exact .inr (.inr ⟨v, rest, i, hpending, hdec, hexec⟩)
    all_goals exact .inl ⟨rfl, rfl⟩
  | read n =>
    cases hperform
    exact .inl ⟨rfl, rfl⟩
  | memWrite a v =>
    obtain ⟨-, rfl⟩ := perform_memWrite hperform
    exact .inl ⟨rfl, rfl⟩
  | memRead a =>
    obtain rfl := perform_memRead hperform
    exact .inl ⟨rfl, rfl⟩
  | reset =>
    cases hperform
    exact .inr (.inl ⟨rfl, .inl (by rw [hpending, List.head?_cons])⟩)
  | resetDuring w =>
    obtain ⟨done, -, rfl⟩ := perform_resetDuring hperform
    exact .inr (.inl ⟨rfl, .inr ⟨w, by rw [hpending, List.head?_cons]⟩⟩)

/-- Settles O15: a command that changes a lane is none of the three that leave the lanes as they are. -/
theorem lanesChangeOnlyByTheirWriters : Obligations.LanesChangeOnlyByTheirWriters := by
  unfold Obligations.LanesChangeOnlyByTheirWriters
  intro s t hstep hchanged
  obtain ⟨hlanes, -⟩ | ⟨-, hreset | hreset⟩ | ⟨v, rest, i, hpending, hdec, hexec⟩ := step_lanes_phase_cases hstep
  · exact absurd hlanes hchanged
  · exact .inl hreset
  · exact .inr (.inl hreset)
  · have hwriter : ¬ (i = .nop ∨ i = .squeeze ∨ i = .stst) := by
      intro hi
      have hlanes := exec_unchanged State.lanes hexec (fun _ _ => rfl) (effectOf_lanes_unchanged hi _)
      exact hchanged hlanes
    refine .inr (.inr ⟨v, i, by rw [hpending, List.head?_cons], hdec, ?_⟩)
    simpa [not_or] using hwriter

/-- A command leaves PHASE as it is or is one of the four that write it, with the phase each one gives (rule R32). -/
theorem exec_phase_cases {i : Instr} {s t : State} (h : exec i s = .next t) :
    t.phase = s.phase ∨ (i = .init ∧ t.phase = .absorbing) ∨ (i = .final ∧ t.phase = .done) ∨
      ((i = .squeeze ∨ i = .hash) ∧ t.phase = .idle) := by
  obtain ⟨-, rfl⟩ | ⟨-, -, rfl⟩ | ⟨-, -, rfl⟩ := exec_cases h
  · exact .inl rfl
  · cases i <;> simp [effectOf]
  · exact .inl rfl

/-- Settles O16, from what a step and a command can do to PHASE. -/
theorem phaseChangesOnlyBySpongeCommands : Obligations.PhaseChangesOnlyBySpongeCommands := by
  unfold Obligations.PhaseChangesOnlyBySpongeCommands
  intro s t hstep hchanged
  obtain ⟨-, hphase⟩ | hreset | ⟨v, rest, i, hpending, hdec, hexec⟩ := step_lanes_phase_cases hstep
  · exact absurd hphase hchanged
  · exact .inl hreset
  · obtain hphase | hwriter := exec_phase_cases hexec
    · exact absurd hphase hchanged
    · exact .inr ⟨v, i, by rw [hpending, List.head?_cons], hdec, hwriter⟩

/-- Settles O40: in DONE the lanes hold the final state of some message, and SQUEEZE stores its digest. -/
theorem squeezeDeliversADigest : Obligations.SqueezeDeliversADigest := by
  unfold Obligations.SqueezeDeliversADigest
  intro s hwf hsponge herr hphase hadmitted
  obtain ⟨m, hm⟩ := hsponge.2 hphase
  refine ⟨effectOf .squeeze s, m, exec_runs herr rfl (by simp [allowed, hphase]) ?_, fun n hn => ?_⟩
  · simpa [ranges] using hadmitted
  · rw [effectOf_squeeze_mem, Memory.read_writeBytes_inside hwf (length_digest s.lanes) hn, hm, keccak256]

/-! ### The register port and reset -/

/-- Settles O4: register 0 is CMD, and a decoded word is issued as its command. -/
theorem stepRunsDecodedCommand : Obligations.StepRunsDecodedCommand := by
  unfold Obligations.StepRunsDecodedCommand
  intro s v rest i hpending hdec
  calc step s
    _ = issue (BitVec.ofNat 32 v) (s.setPending rest) := step_cons hpending
    _ = exec i (s.setPending rest) := issue_decoded hdec _

/-- The fields of STATUS (rule R31). -/
theorem statusWord_fields (s : State) :
    (statusWord s).extractLsb' 0 2 = s.phase.code ∧ (statusWord s).extractLsb' 2 2 = 0#2 ∧
      (statusWord s).extractLsb' 4 4 = s.err.code ∧ (statusWord s).extractLsb' 9 23 = 0#23 := by
  simp only [statusWord, State.busy]
  generalize s.phase.code = p
  generalize s.err.code = e
  revert p e
  decide

/-- Settles O48, from the fields of the STATUS word. -/
theorem statusLayout : Obligations.StatusLayout := by
  unfold Obligations.StatusLayout
  intro s v w
  have hw : w = statusWord s := BitVec.ofNat_toNat _ _
  obtain ⟨hphase, hzero, herr, htop⟩ := statusWord_fields s
  rw [← hw] at hphase hzero herr htop
  exact ⟨hphase, hzero, herr, htop, (statusWord s).isLt, rfl⟩

/-- Settles O49: each clause is what the register map of rule R29 says of one register number. -/
theorem registerPortCornerCases : Obligations.RegisterPortCornerCases := by
  unfold Obligations.RegisterPortCornerCases
  intro s v n
  exact ⟨⟨rfl, rfl, rfl, rfl⟩, ⟨rfl, rfl, rfl⟩, ⟨s.setSrc v, rfl, rfl, rfl⟩, ⟨s.setLen v, rfl, rfl, rfl⟩,
    ⟨s.setDst v, rfl, rfl, rfl⟩, rfl, rfl, rfl⟩

/-- Settles O50: reset gives the state whose fields `State.applyReset` names. -/
theorem resetValues : Obligations.ResetValues := by
  unfold Obligations.ResetValues
  intro s
  exact ⟨s.applyReset, rfl, zeroLanes_lane, rfl, rfl, rfl, rfl, rfl, rfl, rfl, rfl⟩

end Sys2Proof.Machine

namespace Sys2Proof.Machine

/-! ### The checks of a command in the words of the tables (rules R51, R58, R78, R79) -/

theorem argOK_iff (i : Instr) (len : Nat) : argOK i len = true ↔ ¬ ArgError i len := by
  cases i <;> simp [argOK, ArgError]

theorem allowed_iff (i : Instr) (p : Phase) : allowed i p = true ↔ p ∈ allowedPhases i := by
  cases i <;> cases p <;> simp [allowed, allowedPhases]

theorem busError_iff (i : Instr) (s : State) :
    BusError i s ↔ ∃ r ∈ ranges i s, ¬ Admitted s.platform r.base r.size r.kind := by
  cases i <;> simp [BusError, ranges]

theorem admission_noError_iff_not_error (i : Instr) (s : State) :
    admission i s = .noError ↔ ¬ ArgError i s.len ∧ s.phase ∈ allowedPhases i ∧ ¬ BusError i s := by
  simp only [admission_noError_iff, argOK_iff, allowed_iff, rangeOK_iff, busError_iff, not_exists, not_and, not_not]

/-- Past the checks of the argument and the phase only ERR_BUS is left (rule R76 steps 3 to 5). -/
theorem admission_bus_iff {i : Instr} {s : State} (harg : ¬ ArgError i s.len) (hphase : s.phase ∈ allowedPhases i) :
    admission i s = .bus ↔ BusError i s := by
  constructor
  · intro hbus
    by_contra hranges
    have hadmitted := (admission_noError_iff_not_error i s).2 ⟨harg, hphase, hranges⟩
    exact absurd (hadmitted.symm.trans hbus) nofun
  · intro hranges
    have hfails : admission i s ≠ .noError := fun hadmitted =>
      ((admission_noError_iff_not_error i s).1 hadmitted).2.2 hranges
    obtain ⟨-, hfalse⟩ | ⟨-, hfalse⟩ | ⟨hbus, -⟩ := admission_error_cases hfails
    · exact absurd ((argOK_iff i s.len).2 harg) (by simp [hfalse])
    · exact absurd ((allowed_iff i s.phase).2 hphase) (by simp [hfalse])
    · exact hbus

/-- From a state with ERR clear, ERR is afterwards what the checks answer. -/
theorem exec_err {i : Instr} {s t : State} (herr : s.err = .noError) (h : exec i s = .next t) :
    t.err = admission i s := by
  obtain ⟨hset, -⟩ | ⟨-, hadm, rfl⟩ | ⟨-, -, rfl⟩ := exec_cases h
  · exact absurd herr hset
  · rw [effectOf_err, herr, hadm]
  · rfl

/-- A command that raises enters the error and does nothing else (rule R144). -/
theorem exec_raises {i : Instr} {s t : State} (herr : s.err = .noError) (h : exec i s = .next t)
    (hraised : t.err ≠ .noError) : t = s.raiseError t.err (encode i) := by
  obtain ⟨hset, -⟩ | ⟨-, -, rfl⟩ | ⟨-, -, rfl⟩ := exec_cases h
  · exact absurd herr hset
  · exact absurd ((effectOf_err s i).trans herr) hraised
  · rfl

/-- Settles O8: ERR is what the checks answer, and past the first two only a range can fail. -/
theorem rangeAdmission : Obligations.RangeAdmission := by
  unfold Obligations.RangeAdmission
  intro i s t herr harg hphase h
  constructor
  · rw [exec_err herr h]
    exact admission_bus_iff harg hphase
  · intro hbus
    have ht := exec_raises herr h (by simp [hbus])
    rwa [hbus] at ht

/-! ### What a command reads and stores (rules R51, R56, R57) -/

/-- The bytes that a command stores from DST up. -/
def storedBytes (i : Instr) (s : State) : List Byte :=
  match i with
  | .squeeze => digest s.lanes
  | .hash => keccak256 (s.mem.readBytes s.src s.len)
  | .stst => stateImage s.lanes
  | .nop | .init | .absorb | .final | .ldst | .permute | .round _ | .theta | .rho | .pi | .chi | .iota _ => []

@[simp] theorem length_storedBytes (i : Instr) (s : State) : (storedBytes i s).length = outputLength i := by
  cases i <;> simp [storedBytes, outputLength]

theorem effectOf_mem (i : Instr) (s : State) :
    (effectOf i s).mem = s.mem.writeBytes s.dst (storedBytes i s) := by
  by_cases hw : i ≠ .squeeze ∧ i ≠ .hash ∧ i ≠ .stst
  · rw [effectOf_mem_unchanged s i hw]
    cases i <;> simp_all [storedBytes, Memory.writeBytes]
  · obtain rfl | rfl | rfl : i = .squeeze ∨ i = .hash ∨ i = .stst := by tauto
    · exact effectOf_squeeze_mem s
    · exact effectOf_hash_mem s
    · exact effectOf_stst_mem s

/-- A command that leaves ERR clear has stored its bytes. -/
theorem exec_mem_of_noError {i : Instr} {s t : State} (h : exec i s = .next t) (hclear : t.err = .noError) :
    t.mem = s.mem.writeBytes s.dst (storedBytes i s) := by
  obtain ⟨hset, rfl⟩ | ⟨-, -, rfl⟩ | ⟨-, hfails, rfl⟩ := exec_cases h
  · exact absurd hclear hset
  · exact effectOf_mem i s
  · exact absurd hclear hfails

/-- Outside its output range a command changes no byte. -/
theorem exec_read_outside {i : Instr} {s t : State} (hwf : s.mem.wf = true) (h : exec i s = .next t) {a : Nat}
    (ha : a < s.dst ∨ s.dst + outputLength i ≤ a) : t.mem.read a = s.mem.read a := by
  refine exec_unchanged (fun s => s.mem.read a) h (fun _ _ => rfl) ?_
  rw [effectOf_mem]
  exact Memory.read_writeBytes_outside hwf (length_storedBytes i s) ha

/-- Settles O13: each clause is the frame of the output range, at its length in rule R51. -/
theorem commandsWriteOnlyTheOutputRange : Obligations.CommandsWriteOnlyTheOutputRange := by
  unfold Obligations.CommandsWriteOnlyTheOutputRange
  intro i s t hwf h
  refine ⟨?_, ?_, fun hi a => exec_read_outside hwf h ?_⟩
  · rintro (rfl | rfl) a ha <;> exact exec_read_outside hwf h ha
  · rintro rfl a ha
    exact exec_read_outside hwf h ha
  · have hnone : outputLength i = 0 := by cases i <;> simp_all [outputLength]
    omega

/-- Each byte of a range once, in ascending order. -/
theorem MemRange.map_addrs (r : MemRange) :
    (r.addrs.map fun a => (r.kind, a)) = (List.range r.size).map fun k => (r.kind, r.base + k) := by
  rw [MemRange.addrs, List.range'_eq_map_range, List.map_map]
  rfl

theorem accesses_eq (i : Instr) (s : State) :
    accesses i s =
      (List.range (inputLength i s)).map (fun k => (.read, s.src + k)) ++
        (List.range (outputLength i)).map (fun k => (.write, s.dst + k)) := by
  simp only [accesses, MemRange.map_addrs]
  cases i <;> simp [ranges, inputLength, outputLength]

section SameInput

variable {i : Instr} {s : State} {m : Memory}
  (hinput : ∀ k, k < inputLength i s → m.read (s.src + k) = s.mem.read (s.src + k))
include hinput

theorem storedBytes_setMem : storedBytes i (s.setMem m) = storedBytes i s := by
  cases i with
  | hash =>
    have hbytes : m.readBytes s.src s.len = s.mem.readBytes s.src s.len := Memory.readBytes_congr hinput
    simp only [storedBytes, State.setMem_mem, State.setMem_src, State.setMem_len, hbytes]
  | squeeze | stst | nop | init | absorb | final | ldst | permute | round | theta | rho | pi | chi | iota => rfl

/-- But for memory, the effect of a command depends on memory only through its input range. -/
theorem effectOf_setMem :
    effectOf i (s.setMem m) = (effectOf i s).setMem (effectOf i (s.setMem m)).mem := by
  cases i with
  | absorb =>
    have hblock : readBlock m s.src = readBlock s.mem s.src := readBlock_congr hinput
    simp only [effectOf, State.setLanes_eq, State.setMem_eq, hblock]
  | final | hash =>
    have hbytes : m.readBytes s.src s.len = s.mem.readBytes s.src s.len := Memory.readBytes_congr hinput
    simp only [effectOf, hashEffect, State.setLanes_eq, State.setPhase_eq, State.setMem_eq, hbytes]
  | ldst =>
    have hlanes : readLanes m s.src = readLanes s.mem s.src := readLanes_congr hinput
    simp only [effectOf, State.setLanes_eq, State.setMem_eq, hlanes]
  | squeeze | stst | nop | init | permute | round | theta | rho | pi | chi | iota =>
    simp only [effectOf, State.setLanes_eq, State.setPhase_eq, State.setMem_eq]

/-- With another memory that holds the same input, a command leaves the same state but for memory (rule R57). -/
theorem exec_setMem {t : State} (h : exec i s = .next t) :
    ∃ m', exec i (s.setMem m) = .next (t.setMem m') := by
  have herr : (s.setMem m).err = s.err := State.setMem_err s m
  have hadmission : admission i (s.setMem m) = admission i s := by cases i <;> rfl
  obtain ⟨hset, rfl⟩ | ⟨hclear, hadm, rfl⟩ | ⟨hclear, hfails, rfl⟩ := exec_cases h
  · exact ⟨m, exec_refused (herr ▸ hset)⟩
  · rw [exec_eq_command, command_runs (herr.trans hclear) (hadmission.trans hadm), effectOf_setMem hinput]
    exact ⟨_, rfl⟩
  · rw [exec_eq_command, command_raises (herr.trans hclear) (by rwa [hadmission]), hadmission]
    exact ⟨m, rfl⟩

end SameInput

/-- Settles O46: the accesses are those of the table, and the two runs store the same bytes. -/
theorem readsPrecedeWrites : Obligations.ReadsPrecedeWrites := by
  unfold Obligations.ReadsPrecedeWrites
  intro i s
  refine ⟨accesses_eq i s, fun m t hwf hwf' hinput h => ?_⟩
  obtain ⟨m', h'⟩ := exec_setMem hinput h
  refine ⟨m', h', fun hclear k hk => ?_, fun a ha => ⟨exec_read_outside hwf h ha, exec_read_outside hwf' h' ha⟩⟩
  have hmem' : m' = m.writeBytes s.dst (storedBytes i s) := by
    rw [← storedBytes_setMem hinput]
    exact exec_mem_of_noError h' hclear
  rw [hmem', exec_mem_of_noError h hclear, Memory.read_writeBytes_inside hwf' (length_storedBytes i s) hk,
    Memory.read_writeBytes_inside hwf (length_storedBytes i s) hk]

/-! ### The commands that move data -/

/-- Settles O34: the message is read whole before its digest is stored. -/
theorem hashCompletes : Obligations.HashCompletes := by
  unfold Obligations.HashCompletes
  intro s hwf herr hsrc hdst
  have hruns : exec .hash s = .next (effectOf .hash s) :=
    exec_runs herr rfl rfl (by simpa [ranges] using ⟨hsrc, hdst⟩)
  rw [effectOf_hash] at hruns
  refine ⟨s.mem.readBytes s.src s.len, s.mem.writeBytes s.dst (keccak256 (s.mem.readBytes s.src s.len)),
    ⟨Memory.length_readBytes .., Memory.getD_readBytes _ _ _⟩, hruns, fun n hn => ?_, fun a ha => ?_⟩
  · exact Memory.read_writeBytes_inside hwf (length_keccak256 _) hn
  · exact Memory.read_writeBytes_outside hwf (length_keccak256 _) ha

/-- Settles O41: the lane assembled from eight bytes has these bytes. -/
theorem ldstCompletes : Obligations.LdstCompletes := by
  unfold Obligations.LdstCompletes
  intro s herr hphase hsrc
  refine ⟨readLanes s.mem s.src, ?_, fun i j => by rw [readLanes_lane, laneByte_le64]⟩
  exact exec_runs herr rfl (by simp [allowed, hphase]) (by simpa [ranges] using hsrc)

/-- Byte `8i + j` of the image is `byte(A[i], j)` (rule R53). -/
theorem imageBytes_getD_lane (A : Lanes) (i : Fin 25) (j : Fin 8) {n : Nat} (hn : 8 * i.val + j.val < n) :
    (imageBytes A n).getD (8 * i.val + j.val) 0#8 = laneByte A[i] j.val := by
  have hlane : (8 * i.val + j.val) / 8 = i.val := by omega
  have hbyte : (8 * i.val + j.val) % 8 = j.val := by omega
  rw [imageBytes_getD A hn, hlane, hbyte]
  simp [Vector.getD]

/-- Settles O42: the image of the lanes is stored over the whole output range. -/
theorem ststCompletes : Obligations.StstCompletes := by
  unfold Obligations.StstCompletes
  intro s hwf herr hphase hdst
  refine ⟨s.mem.writeBytes s.dst (stateImage s.lanes), ?_, fun i j => ?_, fun a ha => ?_⟩
  · exact exec_runs herr rfl (by simp [allowed, hphase]) (by simpa [ranges] using hdst)
  · have hin : 8 * i.val + j.val < 200 := by omega
    rw [Nat.add_assoc, Memory.read_writeBytes_inside hwf (length_stateImage _) hin]
    exact imageBytes_getD_lane s.lanes i j hin
  · exact Memory.read_writeBytes_outside hwf (length_stateImage _) ha

/-! ### The host's accesses to its memory (rules R50, R59) -/

/-- Everything an access of the host can do: it succeeds, or its address in the host's memory does not exist. -/
theorem perform_cases (op : HostOp) (s : State) :
    (∃ t, perform op s = .next t) ∨
    ∃ a, 2 ^ s.platform.aw ≤ a ∧ ((∃ v, op = .memWrite a v) ∨ op = .memRead a) ∧
      perform op s = .fault (.noSuchAddress a) := by
  cases op with
  | write n v => exact .inl (hostWrite_next n v s)
  | resetDuring w =>
    obtain ⟨done, hdone⟩ := issue_next w s
    exact .inl ⟨resetDuringState w s done, by simp only [perform, hdone]⟩
  | memWrite a v | memRead a =>
    by_cases ha : a < 2 ^ s.platform.aw
    · exact .inl ⟨_, if_pos ha⟩
    · exact .inr ⟨a, Nat.le_of_not_lt ha, by simp, if_neg ha⟩
  | read n | reset => exact .inl ⟨_, rfl⟩

theorem perform_fault_iff (op : HostOp) (s : State) (f : Fault) :
    perform op s = .fault f ↔
      ∃ a, f = .noSuchAddress a ∧ 2 ^ s.platform.aw ≤ a ∧ ((∃ v, op = .memWrite a v) ∨ op = .memRead a) := by
  constructor
  · intro h
    obtain ⟨t, ht⟩ | ⟨a, ha, hop, hfault⟩ := perform_cases op s
    · cases ht.symm.trans h
    · cases hfault.symm.trans h
      exact ⟨a, rfl, ha, hop⟩
  · rintro ⟨a, rfl, ha, ⟨v, rfl⟩ | rfl⟩ <;> exact if_neg (Nat.not_lt.2 ha)

theorem perform_ne_refused (op : HostOp) (s : State) (r : Refusal) : perform op s ≠ .refused r := by
  obtain ⟨t, h⟩ | ⟨a, -, -, h⟩ := perform_cases op s <;> simp [h]

/-- With no access of the host waiting a step changes nothing (rule R155). -/
theorem step_nil {s : State} (h : s.pending = []) : step s = .next s := by
  simp only [step, fetch, h]

/-- Settles O54: an idle step does not stop, and every other step is one access of the host. -/
theorem onlyHostAddressesFault : Obligations.OnlyHostAddressesFault := by
  unfold Obligations.OnlyHostAddressesFault
  intro s
  cases hpending : s.pending with
  | nil => simp [step_nil hpending]
  | cons op rest =>
    rw [step_cons hpending]
    exact ⟨fun f => by simp [perform_fault_iff], perform_ne_refused op _⟩

/-- Settles O52, by the laws of reading after writing. -/
theorem hostMemoryAccesses : Obligations.HostMemoryAccesses := by
  unfold Obligations.HostMemoryAccesses
  intro s a v hwf ha
  refine ⟨⟨s.mem.write a v, if_pos ha, Memory.read_write_self hwf a v, fun b hb => ?_⟩, if_pos ha⟩
  exact Memory.read_write_other hwf v hb

end Sys2Proof.Machine

namespace Sys2Proof

/-! ### The decoding of an encoded command (rules R71, R74, R75) -/

/-- Two rows of the table that one word selects are the same row: different rows differ in a bit that both fix. -/
theorem row_eq_of_selects {row row' : OpcodeRow} (hrow : row ∈ opcodeTable) (hrow' : row' ∈ opcodeTable)
    {w : CmdWord} (h : row.selects w = true) (h' : row'.selects w = true) : row = row' := by
  have hw : w &&& row.mask = row.pattern := by simpa [OpcodeRow.selects] using h
  have hw' : w &&& row'.mask = row'.pattern := by simpa [OpcodeRow.selects] using h'
  have hagree : row.pattern &&& row'.mask = row'.pattern &&& row.mask := by
    rw [← hw, ← hw', BitVec.and_assoc, BitVec.and_assoc, BitVec.and_comm row.mask]
  have hsymm : Std.Symm fun r r' : OpcodeRow => r.pattern &&& r'.mask ≠ r'.pattern &&& r.mask :=
    ⟨fun _ _ hne => hne.symm⟩
  by_contra hne
  exact opcodeTable_disjoint.forall hrow hrow' hne hagree

/-- A word is decoded by the row that it selects (rule R75). -/
theorem decode_of_selects {row : OpcodeRow} (hrow : row ∈ opcodeTable) {w : CmdWord}
    (h : row.selects w = true) : decode w = .ok (row.make (argField w)) := by
  unfold decode
  split
  · rename_i found hfound
    have hselects : found.selects w = true := by simpa using List.find?_some hfound
    rw [row_eq_of_selects (List.mem_of_find?_eq_some hfound) hrow hselects h]
  · rename_i hnone
    exact absurd h (List.find?_eq_none.1 hnone row hrow)

/-- Every row makes well-formed commands: `arg` comes from a field of 8 bits. -/
theorem wf_make : ∀ row ∈ opcodeTable, ∀ arg, (row.make arg).wf = true := by
  simpa [opcodeTable, rowZ, rowI, Instr.wf] using fun arg : Byte => arg.isLt

/-- A decoded command has an encoding (rule R72). -/
theorem wf_of_decode {w : CmdWord} {i : Instr} (h : decode w = .ok i) : i.wf = true := by
  obtain ⟨row, hrow, -, rfl⟩ := decode_ok h
  exact wf_make row hrow _

/-- The row of the table that a command stands in (rule R74). -/
def rowOf (i : Instr) : OpcodeRow :=
  match i with
  | .round _ => rowI 0x00000011#32 .round
  | .iota _ => rowI 0x0000001C#32 .iota
  | .nop | .init | .absorb | .final | .squeeze | .hash | .ldst | .stst | .permute | .theta | .rho | .pi | .chi =>
    rowZ (encode i) i

theorem rowOf_mem (i : Instr) : rowOf i ∈ opcodeTable := by
  cases i <;> simp [rowOf, opcodeTable, encode, opcode, argOf]

/-- A format Z row is selected by its own word. -/
theorem rowZ_selects_self (word : CmdWord) (i : Instr) : (rowZ word i).selects word = true := by
  rw [OpcodeRow.selects, rowZ, beq_iff_eq, show 0xFFFFFFFF#32 = BitVec.allOnes 32 from rfl, BitVec.and_allOnes]

theorem argField_and (w v : CmdWord) : argField (w &&& v) = argField w &&& argField v :=
  BitVec.extractLsb'_and

/-- A format I row is selected by every word with the row's `zero` and `op`, whatever its `arg`. -/
theorem rowI_selects_of_fields {word w : CmdWord} (make : Nat → Instr) (hzero : zeroField w = zeroField word)
    (harg : argField word = 0#8) (hop : opField w = opField word) : (rowI word make).selects w = true := by
  have hzeroMask : zeroField 0xFFFF00FF#32 = BitVec.allOnes 16 := rfl
  have hargMask : argField 0xFFFF00FF#32 = 0#8 := rfl
  have hopMask : opField 0xFFFF00FF#32 = BitVec.allOnes 8 := rfl
  rw [OpcodeRow.selects, rowI, beq_iff_eq, ← append_fields (w &&& 0xFFFF00FF#32), ← append_fields word, zeroField_and,
    argField_and, opField_and, hzeroMask, hargMask, hopMask, BitVec.and_allOnes, BitVec.and_zero, BitVec.and_allOnes,
    hzero, harg, hop]

theorem rowOf_selects (i : Instr) : (rowOf i).selects (encode i) = true := by
  cases i with
  | round arg | iota arg => exact rowI_selects_of_fields _ (zeroField_encode _) rfl (opField_encode _)
  | _ => exact rowZ_selects_self _ _

/-- The row of a well-formed command makes the command from its `arg`. -/
theorem rowOf_make {i : Instr} (hwf : i.wf = true) : (rowOf i).make (argOf i) = i := by
  cases i with
  | round arg | iota arg =>
    have harg : arg < 2 ^ 8 := by simpa [Instr.wf] using hwf
    simp only [rowOf, rowI, argOf, BitVec.toNat_ofNat, Nat.mod_eq_of_lt harg]
  | _ => rfl

/-- The command word of a well-formed command is decoded to the command. -/
theorem decode_encode {i : Instr} (hwf : i.wf = true) : decode (encode i) = .ok i := by
  rw [decode_of_selects (rowOf_mem i) (rowOf_selects i), argField_encode, rowOf_make hwf]

theorem decode_ok_iff (w : CmdWord) (i : Instr) : decode w = .ok i ↔ i.wf = true ∧ encode i = w := by
  constructor
  · exact fun h => ⟨wf_of_decode h, encode_of_decode h⟩
  · rintro ⟨hwf, rfl⟩
    exact decode_encode hwf

/-- Settles O1, one direction by the row that a decoded word selects and one by the row of the encoded command. -/
theorem decodeInvertsEncode : Obligations.DecodeInvertsEncode := decode_ok_iff

/-- Settles O2: each word is the command word of its command, by computation, and so it is decoded to it. -/
theorem tableWordsDecode : Obligations.TableWordsDecode := by
  unfold Obligations.TableWordsDecode
  intro row
  have hrow : ∀ {w i}, i.wf = true → encode i = w → row w i :=
    fun hwf hword => ⟨(decode_ok_iff _ _).2 ⟨hwf, hword⟩, hword⟩
  exact ⟨hrow rfl rfl, hrow rfl rfl, hrow rfl rfl, hrow rfl rfl, hrow rfl rfl, hrow rfl rfl, hrow rfl rfl,
    hrow rfl rfl, hrow rfl rfl, hrow rfl rfl, hrow rfl rfl, hrow rfl rfl, hrow rfl rfl, hrow rfl rfl, hrow rfl rfl⟩

end Sys2Proof

namespace Sys2Proof.Machine

/-! ### The words that are no command (rule R77) -/

/-- The commands of format Z (rule R74). -/
def formatZ : List Instr :=
  [.nop, .init, .absorb, .final, .squeeze, .hash, .ldst, .stst, .permute, .theta, .rho, .pi, .chi]

/-- Format Z fixes the field `arg` at 0 (rule R71). -/
theorem wf_and_argOf_of_formatZ : ∀ i ∈ formatZ, i.wf = true ∧ argOf i = 0#8 := by decide

/-- Fields that no cause of rule R77 rejects are those of a command. -/
theorem exists_command_of_fields {op arg : Byte}
    (hop : op ∈ [0x00#8, 0x01#8, 0x02#8, 0x03#8, 0x04#8, 0x05#8, 0x08#8, 0x09#8, 0x10#8, 0x11#8, 0x18#8, 0x19#8,
      0x1A#8, 0x1B#8, 0x1C#8])
    (harg : op ≠ 0x11#8 → op ≠ 0x1C#8 → arg = 0#8) :
    ∃ i : Instr, i.wf = true ∧ opcode i = op ∧ argOf i = arg := by
  have hfits : decide (arg.toNat < 256) = true := decide_eq_true arg.isLt
  have hback : BitVec.ofNat 8 arg.toNat = arg := by simp
  by_cases hround : op = 0x11#8
  · exact ⟨.round arg.toNat, hfits, hround.symm, hback⟩
  by_cases hiota : op = 0x1C#8
  · exact ⟨.iota arg.toNat, hfits, hiota.symm, hback⟩
  have hformatZ : op ∈ formatZ.map opcode := by
    simpa [formatZ, opcode, hround, hiota] using hop
  obtain ⟨i, hi, rfl⟩ := List.mem_map.1 hformatZ
  obtain ⟨hwf, hzero⟩ := wf_and_argOf_of_formatZ i hi
  exact ⟨i, hwf, rfl, hzero.trans (harg hround hiota).symm⟩

/-- No cause of rule R77 rejects the word of a command. -/
theorem not_illegalWord_encode (i : Instr) : ¬ IllegalWord (encode i) := by
  simp only [IllegalWord, zeroField_encode, opField_encode, argField_encode]
  cases i <;> simp [opcode, argOf]

/-- The three causes of rule R77 reject exactly the words that are not decoded. -/
theorem illegalWord_iff (w : CmdWord) : IllegalWord w ↔ ∀ i, decode w ≠ .ok i := by
  constructor
  · intro h i hdec
    rw [← encode_of_decode hdec] at h
    exact not_illegalWord_encode i h
  · intro hnone
    by_contra hlegal
    simp only [IllegalWord, not_or, not_and, not_not] at hlegal
    obtain ⟨hzero, hop, harg⟩ := hlegal
    obtain ⟨i, hwf, hopcode, hargOf⟩ := exists_command_of_fields hop harg
    exact hnone i ((decode_ok_iff w i).2 ⟨hwf, encode_eq_of_fields hzero hargOf.symm hopcode.symm⟩)

/-- A word that is no command raises ERR_ILLEGAL and does nothing else (rules R77, R144). -/
theorem issue_rejected {w : CmdWord} {e : DecodeError} {s : State} (herr : s.err = .noError)
    (hdec : decode w = .error e) : issue w s = .next (s.raiseError .illegal w) := by
  rw [issue, if_neg (not_not.2 herr), hdec]

/-- Settles O3: a write to CMD issues the word, and a word is decoded unless one of the causes rejects it. -/
theorem illegalEncodingsRaise : Obligations.IllegalEncodingsRaise := by
  unfold Obligations.IllegalEncodingsRaise
  intro s v herr w
  have hwrite : hostWrite 0#3 v s = issue w s := rfl
  rw [hwrite, illegalWord_iff]
  cases hdec : decode w with
  | ok i => exact ⟨fun hnone => absurd rfl (hnone i), fun _ => ⟨i, rfl, issue_decoded hdec s⟩⟩
  | error e => exact ⟨fun _ => issue_rejected herr hdec, fun hsome => absurd nofun hsome⟩

/-! ### The checks of a command in their order (rules R76, R78, R79, R143) -/

theorem admission_arg_iff (i : Instr) (s : State) : admission i s = .arg ↔ ArgError i s.len := by
  rw [← not_iff_not, ← argOK_iff]
  unfold admission
  split_ifs <;> simp_all

theorem admission_seq_iff {i : Instr} {s : State} (harg : ¬ ArgError i s.len) :
    admission i s = .seq ↔ s.phase ∉ allowedPhases i := by
  rw [← argOK_iff] at harg
  rw [← allowed_iff]
  unfold admission
  split_ifs <;> simp_all

/-- The word of a command with ERR clear that fails a check raises the error of the check (rules R76, R144). -/
theorem issue_raises {w : CmdWord} {i : Instr} {s : State} {code : ErrCode} (herr : s.err = .noError)
    (hdec : decode w = .ok i) (hadm : admission i s = code) (hcode : code ≠ .noError) :
    issue w s = .next (s.raiseError code w) := by
  subst hadm
  rw [issue_decoded hdec, exec_eq_command, command_raises herr hcode, encode_of_decode hdec]

/-- A command that passes the checks has its effect (rule R76 step 6). -/
theorem exec_admitted {i : Instr} {s : State} (herr : s.err = .noError) (hadm : admission i s = .noError) :
    exec i s = .next (effectOf i s) := by
  rw [exec_eq_command, command_runs herr hadm]

/-- Settles O5: the checks answer the first that fails, and a command that passes them all has its effect. -/
theorem dispatchChecksInOrder : Obligations.DispatchChecksInOrder := by
  unfold Obligations.DispatchChecksInOrder
  intro s w
  refine ⟨fun hset => if_pos hset, fun herr => ⟨fun e hdec => issue_rejected herr hdec, fun i hdec => ?_⟩⟩
  refine ⟨fun harg => ?_, fun harg hphase => ?_, fun harg hphase hranges => ?_, fun harg hphase hranges => ?_⟩
  · exact issue_raises herr hdec ((admission_arg_iff i s).2 harg) nofun
  · exact issue_raises herr hdec ((admission_seq_iff harg).2 hphase) nofun
  · exact issue_raises herr hdec ((admission_bus_iff harg hphase).2 hranges) nofun
  · have hadm : admission i s = .noError := (admission_noError_iff_not_error i s).2 ⟨harg, hphase, hranges⟩
    have hexec : exec i s = .next (effectOf i s) := exec_admitted herr hadm
    exact ⟨effectOf i s, (issue_decoded hdec s).trans hexec, hexec, (effectOf_err s i).trans herr, effectOf_ecmd s i⟩

/-- Settles O6: ERR is what the checks answer, and the argument is checked first. -/
theorem argumentErrorsExactly : Obligations.ArgumentErrorsExactly := by
  unfold Obligations.ArgumentErrorsExactly
  intro i s t herr h
  rw [exec_err herr h]
  exact admission_arg_iff i s

/-- An admitted command leaves the phase that the table of rule R78 gives. -/
theorem effectOf_phase {i : Instr} {s : State} (hphase : s.phase ∈ allowedPhases i) :
    (effectOf i s).phase = phaseAfter s.phase i := by
  cases i <;> simp_all [effectOf, phaseAfter, allowedPhases]

/-- Settles O7: past the check of the argument the phase is checked, and an admitted command has its effect. -/
theorem phaseLegalityTable : Obligations.PhaseLegalityTable := by
  unfold Obligations.PhaseLegalityTable
  intro i s t herr harg h
  refine ⟨by rw [exec_err herr h, admission_seq_iff harg], fun hclear => ?_⟩
  have hadm : admission i s = .noError := (exec_err herr h).symm.trans hclear
  obtain ⟨-, hphase, -⟩ := (admission_noError_iff_not_error i s).1 hadm
  cases (exec_admitted herr hadm).symm.trans h
  exact ⟨hphase, effectOf_phase hphase⟩

/-! ### Running a script (rules R80, R81) -/

/-- A command neither looks at the queue nor changes it. -/
theorem exec_setPending {i : Instr} {s t : State} (h : exec i s = .next t) (ops : List HostOp) :
    exec i (s.setPending ops) = .next (t.setPending ops) := by
  have hadmission : admission i (s.setPending ops) = admission i s := by cases i <;> rfl
  have heffect : effectOf i (s.setPending ops) = (effectOf i s).setPending ops := by
    cases i <;> simp only [effectOf, hashEffect, State.setLanes_eq, State.setPhase_eq, State.setMem_eq,
      State.setPending_eq]
  obtain ⟨hset, rfl⟩ | ⟨hclear, hadm, rfl⟩ | ⟨hclear, hfails, rfl⟩ := exec_cases h
  · exact exec_refused hset
  · rw [← heffect]
    exact exec_admitted hclear (hadmission.trans hadm)
  · rw [exec_eq_command, ← hadmission]
    exact command_raises hclear (by rwa [hadmission])

/-- The state with the operand register that a `wr` line names at `v` (rules R35 to R37, R80). -/
def State.setOperand (s : State) (r : WrReg) (v : Nat) : State :=
  match r with
  | .src => { s with src := v }
  | .len => { s with len := v }
  | .dst => { s with dst := v }

section Script

variable {k : Nat} {s t : State} {lines : List Line} {rest : List HostOp}

/-- The first line of a script is the host's next access. -/
theorem runSteps_line {l : Line}
    (h : perform l.op (s.setPending (scriptOps lines ++ rest)) = .next (t.setPending (scriptOps lines ++ rest))) :
    runSteps (k + 1) (s.setPending (scriptOps (l :: lines) ++ rest)) =
      runSteps k (t.setPending (scriptOps lines ++ rest)) :=
  runSteps_succ ((step_cons rfl).trans h)

/-- A `cmd` line runs its command. -/
theorem runSteps_cmd {i : Instr} (hwf : i.wf = true) (h : exec i s = .next t) :
    runSteps (k + 1) (s.setPending (scriptOps (.cmd i :: lines) ++ rest)) =
      runSteps k (t.setPending (scriptOps lines ++ rest)) := by
  have hword : BitVec.ofNat 32 (encode i).toNat = encode i := by simp
  have hissue : ∀ s', perform (Line.cmd i).op s' = issue (BitVec.ofNat 32 (encode i).toNat) s' := fun _ => rfl
  apply runSteps_line
  rw [hissue, hword, issue_decoded (decode_encode hwf), exec_setPending h]

/-- A `wr` line stores a value of `AW` bits as it is (rules R35 to R37). -/
theorem runSteps_wr {v : Nat} (r : WrReg) (hv : v < 2 ^ s.platform.aw) :
    runSteps (k + 1) (s.setPending (scriptOps (.wr r v :: lines) ++ rest)) =
      runSteps k ((s.setOperand r v).setPending (scriptOps lines ++ rest)) := by
  have hstored : v % 2 ^ s.platform.aw = v := Nat.mod_eq_of_lt hv
  apply runSteps_line
  cases r <;>
    simp [Line.op, WrReg.number, perform, hostWrite, portReg, State.setSrc, State.setLen, State.setDst,
      State.setPending, State.setOperand, hstored]

end Script

/-- The bytes that memory holds over a range are the bytes read there. -/
theorem Memory.eq_readBytes {m : Memory} {base n : Nat} {bs : List Byte} (hlen : bs.length = n)
    (hbytes : ∀ k, k < n → bs.getD k 0#8 = m.read (base + k)) : bs = m.readBytes base n := by
  refine List.ext_getElem (by simp [hlen]) fun k hk hk' => ?_
  have hk : k < n := hlen ▸ hk
  have h := (hbytes k hk).trans (Memory.getD_readBytes m base n k hk).symm
  simpa [List.getD, hlen, hk] using h

/-- Settles O38: the operands are below `2^AW`, so the three registers hold them, and HASH stores the digest. -/
theorem keccak256ScriptWritesTheDigest : Obligations.Keccak256ScriptWritesTheDigest := by
  unfold Obligations.Keccak256ScriptWritesTheDigest
  intro s p n d rest hwf herr hp hn hd hsrc hdst
  obtain ⟨msg, m, ⟨hlen, hbytes⟩, hhash, hinside, houtside⟩ :=
    hashCompletes { s with src := p, len := n, dst := d } hwf herr hsrc hdst
  obtain rfl := Memory.eq_readBytes hlen hbytes
  have hrun :=
    calc runSteps 4 (s.setPending (scriptOps [.wr .src p, .wr .len n, .wr .dst d, .cmd .hash] ++ rest))
      _ = runSteps 3 ((s.setOperand .src p).setPending (scriptOps [.wr .len n, .wr .dst d, .cmd .hash] ++ rest)) :=
        runSteps_wr .src hp
      _ = runSteps 2 (((s.setOperand .src p).setOperand .len n).setPending
            (scriptOps [.wr .dst d, .cmd .hash] ++ rest)) := runSteps_wr .len hn
      _ = runSteps 1 ((((s.setOperand .src p).setOperand .len n).setOperand .dst d).setPending
            (scriptOps [.cmd .hash] ++ rest)) := runSteps_wr .dst hd
      _ = _ := runSteps_cmd rfl hhash
  exact ⟨_, hrun, rfl, rfl, rfl, herr, rfl, rfl, hinside, houtside⟩

/-- An idle engine runs PERMUTE (rule R103). -/
theorem exec_permute {s : State} (herr : s.err = .noError) (hphase : s.phase = .idle) :
    exec .permute s = .next { s with lanes := keccakF s.lanes } := by
  rw [exec_runs herr rfl (by simp [allowed, hphase]) (by simp [ranges]), effectOf, State.setLanes_eq]

/-- Settles O45: LDST loads the image at `p`, PERMUTE permutes the lanes, and STST stores their image at `p`. -/
theorem f1600ScriptPermutesInPlace : Obligations.F1600ScriptPermutesInPlace := by
  unfold Obligations.F1600ScriptPermutesInPlace
  intro s p rest hwf herr hphase hp hread hwrite
  obtain ⟨A, hldst, hA⟩ := ldstCompletes { s with src := p } herr hphase hread
  let loaded : State := { s with src := p, lanes := A }
  have hpermute : exec .permute loaded = .next { loaded with lanes := keccakF A } := exec_permute herr hphase
  refine ⟨A, ?_⟩
  -- Named, so that matching the states of the run never unfolds the permutation.
  generalize keccakF A = B at hpermute ⊢
  obtain ⟨m, hstst, hinside, houtside⟩ :=
    ststCompletes { s with src := p, dst := p, lanes := B } hwf herr hphase hwrite
  have hrun :=
    calc runSteps 5 (s.setPending (scriptOps [.wr .src p, .cmd .ldst, .cmd .permute, .wr .dst p, .cmd .stst] ++ rest))
      _ = runSteps 4 ((s.setOperand .src p).setPending
            (scriptOps [.cmd .ldst, .cmd .permute, .wr .dst p, .cmd .stst] ++ rest)) := runSteps_wr .src hp
      _ = runSteps 3 (loaded.setPending (scriptOps [.cmd .permute, .wr .dst p, .cmd .stst] ++ rest)) :=
        runSteps_cmd rfl hldst
      _ = runSteps 2 ((loaded.setLanes B).setPending (scriptOps [.wr .dst p, .cmd .stst] ++ rest)) :=
        runSteps_cmd rfl hpermute
      _ = runSteps 1 (((loaded.setLanes B).setOperand .dst p).setPending
            (scriptOps [.cmd .stst] ++ rest)) := runSteps_wr .dst hp
      _ = _ := runSteps_cmd rfl hstst
  exact ⟨_, hrun, hA, rfl, hinside, houtside, herr, hphase, rfl⟩

end Sys2Proof.Machine

namespace Sys2Proof.Machine

/-! ### A command on the lanes alone, in IDLE (rules R76, R90 to R95) -/

/-- A command without ranges that IDLE allows runs in IDLE once its argument is good. -/
theorem exec_idle {i : Instr} {s : State} (herr : s.err = .noError) (hphase : s.phase = .idle)
    (harg : argOK i s.len = true) (hallowed : allowed i .idle = true) (hranges : ranges i s = []) :
    exec i s = .next (effectOf i s) :=
  exec_runs herr harg (hphase ▸ hallowed) (by simp [hranges])

/-- Settles O17: `thetaD` is the term of rule R90 over the column parities. -/
theorem thetaCompletes : Obligations.ThetaCompletes := by
  unfold Obligations.ThetaCompletes
  intro s herr hphase C
  refine ⟨rfl, theta s.lanes, exec_idle herr hphase rfl rfl rfl, fun x y => ?_⟩
  rw [theta_lane, col_pos]
  rfl

/-- Settles O18: the rotation ROM holds the offsets of rule R25, position by position. -/
theorem rhoCompletes : Obligations.RhoCompletes := by
  unfold Obligations.RhoCompletes
  intro s herr hphase
  refine ⟨rfl, rho s.lanes, exec_idle herr hphase rfl rfl rfl, fun i => ?_⟩
  rw [rho_lane]
  congr 1
  revert i
  decide

/-- The table of rule R26 is its coordinate form: the lane at `(x, y)` moves to `(y, 2x + 3y)`. -/
theorem piSrc_pos : ∀ x y : Fin 5, piSrc (pos y (2 * x + 3 * y)) = pos x y := by decide

/-- Settles O19: the lane that moves to `(y, 2x + 3y)` comes from `(x, y)`. -/
theorem piCompletes : Obligations.PiCompletes := by
  unfold Obligations.PiCompletes
  intro s herr hphase
  refine ⟨rfl, piStep s.lanes, exec_idle herr hphase rfl rfl rfl, fun x y => ?_⟩
  simp only [piStep_lane, piSrc_pos]

/-- The lane that CHI leaves at column `x`, row `y` (rule R93). -/
theorem chi_lane_pos (A : Lanes) (x y : Fin 5) :
    (chi A)[pos x y] = A[pos x y] ^^^ (~~~ A[pos (x + 1) y] &&& A[pos (x + 2) y]) := by
  simp only [chi_lane, col_pos, row_pos]

/-- Settles O20: column and row of `(x, y)` are `x` and `y`, so CHI reads the neighbours in the row. -/
theorem chiCompletes : Obligations.ChiCompletes := by
  unfold Obligations.ChiCompletes
  intro s herr hphase
  exact ⟨rfl, chi s.lanes, exec_idle herr hphase rfl rfl rfl, chi_lane_pos s.lanes⟩

/-- IOTA adds the round constant to lane 0 (rule R94). -/
theorem iota_lane_zero (A : Lanes) (r : Nat) : (iota A r)[0] = A[0] ^^^ rc r :=
  (iota_lane A r 0).trans (if_pos rfl)

/-- Settles O21: below 24 the argument is good and the ROM of rule R24 holds the constant; from 24 up the argument
is refused first. -/
theorem iotaCompletes : Obligations.IotaCompletes := by
  unfold Obligations.IotaCompletes
  intro s r herr
  refine ⟨fun hr hphase => ⟨?_, iota s.lanes r, ?_, ?_, fun i hi => ?_⟩, fun hr => ?_⟩
  · revert r
    decide
  · exact exec_idle herr hphase (decide_eq_true hr) rfl rfl
  · rw [iota_lane_zero]
    congr 1
    revert r
    decide
  · rw [iota_lane, if_neg hi]
  · have hadm : admission (.iota r) s = .arg := (admission_arg_iff _ s).2 (.inl ⟨r, .inr rfl, hr⟩)
    rw [exec_eq_command, command_raises herr (by simp [hadm]), hadm]
    rfl

/-! ### Rotations -/

theorem rotl64_mod (a : Lane) (n : Nat) : rotl64 a (n % 64) = rotl64 a n := BitVec.rotateLeft_mod_eq_rotateLeft

/-- The bit clause of rule R11, for every amount. -/
theorem getLsbD_rotl64_add_mod (a : Lane) (n : Nat) {k : Nat} (hk : k < 64) :
    (rotl64 a n).getLsbD ((k + n) % 64) = a.getLsbD k := by
  rw [← rotl64_mod, ← Nat.add_mod_mod]
  exact getLsbD_rotl64 a (Nat.mod_lt n (by decide)) hk

/-- Two lanes are equal when they agree at every position that a rotation by `n` moves a bit to. -/
theorem eq_of_getLsbD_add_mod {a b : Lane} (n : Nat)
    (h : ∀ k, k < 64 → a.getLsbD ((k + n) % 64) = b.getLsbD ((k + n) % 64)) : a = b := by
  apply BitVec.eq_of_getLsbD_eq
  intro j hj
  have hsource : ((j + 63 * n) % 64 + n) % 64 = j := by omega
  simpa only [hsource] using h ((j + 63 * n) % 64) (Nat.mod_lt _ (by decide))

theorem rotl64_rotl64 (a : Lane) (m n : Nat) : rotl64 (rotl64 a m) n = rotl64 a (m + n) := by
  apply eq_of_getLsbD_add_mod (m + n)
  intro k hk
  have hsteps : (k + (m + n)) % 64 = ((k + m) % 64 + n) % 64 := by omega
  rw [getLsbD_rotl64_add_mod a _ hk, hsteps, getLsbD_rotl64_add_mod _ n (Nat.mod_lt _ (by decide)),
    getLsbD_rotl64_add_mod a m hk]

theorem rotl64_xor (a b : Lane) (n : Nat) : rotl64 (a ^^^ b) n = rotl64 a n ^^^ rotl64 b n := by
  apply eq_of_getLsbD_add_mod n
  intro k hk
  simp only [BitVec.getLsbD_xor, getLsbD_rotl64_add_mod _ n hk]

@[simp] theorem rotl64_zeroLane (n : Nat) : rotl64 0#64 n = 0#64 := by
  simpa using rotl64_xor 0#64 0#64 n

theorem rotl64_injective (n : Nat) : Function.Injective fun a => rotl64 a n := by
  intro a b h
  apply BitVec.eq_of_getLsbD_eq
  intro k hk
  rw [← getLsbD_rotl64_add_mod a n hk, ← getLsbD_rotl64_add_mod b n hk]
  exact congrArg (BitVec.getLsbD · _) h

/-! ### THETA on the column parities -/

/-- With associativity and commutativity, brings equal summands of a sum of lanes side by side. -/
theorem xor_left_comm (a b c : Lane) : a ^^^ (b ^^^ c) = b ^^^ (a ^^^ c) := by
  rw [← BitVec.xor_assoc, BitVec.xor_comm a b, BitVec.xor_assoc]

/-- Each lane of a row of five plus two others of the row, the second rotated by `n`. -/
def mixRow (a b : Fin 5) (n : Nat) (C : Fin 5 → Lane) : Fin 5 → Lane :=
  fun x => C x ^^^ (C (x + a) ^^^ rotl64 (C (x + b)) n)

/-- THETA adds its term five times, that is once, to each column parity. -/
theorem thetaC_theta (A : Lanes) : thetaC (theta A) = mixRow 4 1 1 (thetaC A) := by
  funext x
  show thetaC (theta A) x = thetaC A x ^^^ thetaD A x
  generalize hD : thetaD A x = D
  simp only [thetaC, theta_lane, col_pos, hD]
  simp [BitVec.xor_assoc, BitVec.xor_comm, xor_left_comm]

/-- Mixing twice doubles the distances: the mixed terms occur twice and cancel. -/
theorem mixRow_mixRow (a b : Fin 5) (n : Nat) (C : Fin 5 → Lane) :
    mixRow a b n (mixRow a b n C) = mixRow (a + a) (b + b) (n + n) C := by
  funext x
  have hswap : x + b + a = x + a + b := add_right_comm x b a
  simp only [mixRow, rotl64_xor, rotl64_rotl64, hswap, ← add_assoc]
  simp [BitVec.xor_assoc, xor_left_comm]

/-- If mixing twice loses nothing, mixing once loses nothing. -/
theorem mixRow_injective_of_double {a b : Fin 5} {n : Nat}
    (h : Function.Injective (mixRow (a + a) (b + b) (n + n))) : Function.Injective (mixRow a b n) := by
  intro C C' hC
  apply h
  rw [← mixRow_mixRow, hC, mixRow_mixRow]

/-- Rotated by a whole turn, the mixing with distances 1 and 4 is undone by the one with distances 2 and 3: of the
nine summands only the lane itself occurs an odd number of times. -/
theorem mixRow_leftInverse : Function.LeftInverse (mixRow 2 3 0) (mixRow 1 4 64) := by
  intro C
  funext x
  have hturn (a : Lane) : rotl64 a 64 = a := by rw [← rotl64_mod, Nat.mod_self, rotl64_zero]
  simp only [mixRow, hturn, rotl64_zero, add_assoc, Fin.reduceAdd]
  simp [BitVec.xor_assoc, BitVec.xor_comm, xor_left_comm]

/-- What THETA does to the column parities loses nothing. Mixing is undone once its 64-fold repetition is: six
doublings take the distances 4 and 1, modulo 5, to 1 and 4, and the rotation to a whole turn. -/
theorem mixRow_theta_injective : Function.Injective (mixRow 4 1 1) := by
  have h64 : Function.Injective (mixRow 1 4 64) := mixRow_leftInverse.injective
  have h32 : Function.Injective (mixRow 3 2 32) := mixRow_injective_of_double h64
  have h16 : Function.Injective (mixRow 4 1 16) := mixRow_injective_of_double h32
  have h8 : Function.Injective (mixRow 2 3 8) := mixRow_injective_of_double h16
  have h4 : Function.Injective (mixRow 1 4 4) := mixRow_injective_of_double h8
  have h2 : Function.Injective (mixRow 3 2 2) := mixRow_injective_of_double h4
  exact mixRow_injective_of_double h2

/-! ### The step mappings lose no information (rule R95) -/

/-- The state after THETA determines the parities before it, so the term that was added, so the lanes. -/
theorem theta_injective : Function.Injective theta := by
  intro A B h
  have hparity : thetaC A = thetaC B := mixRow_theta_injective (by rw [← thetaC_theta, h, thetaC_theta])
  have hterm : thetaD A = thetaD B := by
    funext x
    simp only [thetaD, hparity]
  apply lanes_ext
  intro i
  have hlane : (theta A)[i] = (theta B)[i] := by rw [h]
  rw [theta_lane, theta_lane, hterm] at hlane
  exact (BitVec.xor_left_inj _).1 hlane

theorem rho_injective : Function.Injective rho := by
  intro A B h
  apply lanes_ext
  intro i
  have hlane : (rho A)[i] = (rho B)[i] := by rw [h]
  rw [rho_lane, rho_lane] at hlane
  exact rotl64_injective _ hlane

theorem piSrc_surjective : Function.Surjective piSrc := by decide

theorem piStep_injective : Function.Injective piStep := by
  intro A B h
  apply lanes_ext
  intro i
  obtain ⟨j, rfl⟩ := piSrc_surjective i
  rw [← piStep_lane, ← piStep_lane, h]

/-- The lane that CHI makes from three neighbours in a row (rule R93). -/
def chiLane (a b c : Lane) : Lane := a ^^^ (~~~ b &&& c)

/-- CHI undone: a lane from the five that CHI leaves in its row. -/
def unchiLane (a b c d e : Lane) : Lane := chiLane a b (chiLane c d e)

/-- Bit by bit, over the values of five bits. -/
theorem unchiLane_chiLane (a b c d e : Lane) :
    unchiLane (chiLane a b c) (chiLane b c d) (chiLane c d e) (chiLane d e a) (chiLane e a b) = a := by
  apply BitVec.eq_of_getLsbD_eq
  intro k hk
  simp only [unchiLane, chiLane, BitVec.getLsbD_xor, BitVec.getLsbD_and, BitVec.getLsbD_not, hk, decide_true,
    Bool.true_and]
  generalize a.getLsbD k = a, b.getLsbD k = b, c.getLsbD k = c, d.getLsbD k = d, e.getLsbD k = e
  revert a b c d e
  decide

theorem unchiLane_chi (A : Lanes) (x y : Fin 5) :
    unchiLane (chi A)[pos x y] (chi A)[pos (x + 1) y] (chi A)[pos (x + 2) y] (chi A)[pos (x + 3) y]
      (chi A)[pos (x + 4) y] = A[pos x y] := by
  simp only [chi_lane_pos, add_assoc, Fin.reduceAdd, add_zero]
  exact unchiLane_chiLane ..

theorem chi_injective : Function.Injective chi := by
  intro A B h
  apply lanes_ext
  intro i
  rw [← pos_col_row i, ← unchiLane_chi A, h, unchiLane_chi]

theorem iota_involutive (r : Nat) : Function.Involutive fun A => iota A r := by
  intro A
  apply lanes_ext
  intro i
  simp only [iota_lane]
  split
  · rw [BitVec.xor_assoc, BitVec.xor_self, BitVec.xor_zero]
  · rfl

/-- There are finitely many states, so a step mapping that loses no information also reaches every state. -/
theorem lanes_bijective_of_injective {f : Lanes → Lanes} (h : Function.Injective f) : Function.Bijective f := by
  have hread : Function.Injective fun (A : Lanes) (i : Fin 25) => A[i] := fun _ _ hAB => lanes_ext (congrFun hAB)
  have hfinite : Finite Lanes := Finite.of_injective _ hread
  exact Finite.injective_iff_bijective.1 h

theorem keccakRound_bijective (r : Nat) : Function.Bijective fun A => keccakRound A r :=
  (iota_involutive r).bijective.comp <| lanes_bijective_of_injective <|
    chi_injective.comp <| piStep_injective.comp <| rho_injective.comp theta_injective

/-- Settles O24: the first four are injective on finitely many states, and IOTA is its own inverse. -/
theorem stepMappingsBijective : Obligations.StepMappingsBijective :=
  ⟨lanes_bijective_of_injective theta_injective, lanes_bijective_of_injective rho_injective,
    lanes_bijective_of_injective piStep_injective, lanes_bijective_of_injective chi_injective,
    fun r => (iota_involutive r).bijective, keccakRound_bijective⟩

/-! ### The zero state (rule R96) -/

@[simp] theorem thetaD_zeroLanes (x : Fin 5) : thetaD zeroLanes x = 0#64 := by
  simp only [thetaD, thetaC, zeroLanes_lane, BitVec.xor_zero, rotl64_zeroLane]

/-- Settles O26: lane by lane, a sum or a rotation of zeros is zero. -/
theorem zeroStateAndIotaTwice : Obligations.ZeroStateAndIotaTwice := by
  unfold Obligations.ZeroStateAndIotaTwice
  refine ⟨lanes_ext fun i => ?_, lanes_ext fun i => ?_, lanes_ext fun i => ?_, lanes_ext fun i => ?_,
    fun A r => iota_involutive r A⟩
  · simp only [theta_lane, thetaD_zeroLanes, zeroLanes_lane, BitVec.xor_zero]
  · simp only [rho_lane, zeroLanes_lane, rotl64_zeroLane]
  · simp only [piStep_lane, zeroLanes_lane]
  · simp only [chi_lane, zeroLanes_lane, BitVec.and_zero, BitVec.xor_zero]

end Sys2Proof.Machine

namespace Sys2Proof.Machine

/-! ### The round and the permutation as commands (rules R100 to R104) -/

/-- An idle engine runs ROUND for every round index below 24, in any order (rule R101). -/
theorem exec_round {s : State} {r : Nat} (herr : s.err = .noError) (hphase : s.phase = .idle) (hr : r < 24) :
    exec (.round r) s = .next { s with lanes := keccakRound s.lanes r } :=
  exec_idle herr hphase (decide_eq_true hr) rfl rfl

/-- Settles O22: each step leaves ERR clear and PHASE IDLE, so the next one runs, on the lanes it left; the five on
the lanes are the round by its definition. -/
theorem roundIsTheFiveSteps : Obligations.RoundIsTheFiveSteps := by
  unfold Obligations.RoundIsTheFiveSteps
  intro s r herr hphase hr
  refine ⟨{ s with lanes := theta s.lanes }, { s with lanes := rho (theta s.lanes) },
    { s with lanes := piStep (rho (theta s.lanes)) }, { s with lanes := chi (piStep (rho (theta s.lanes))) },
    { s with lanes := keccakRound s.lanes r }, ?_, ?_, ?_, ?_, ?_, ?_, rfl⟩
  · exact exec_idle herr hphase rfl rfl rfl
  · exact exec_idle herr hphase rfl rfl rfl
  · exact exec_idle herr hphase rfl rfl rfl
  · exact exec_idle herr hphase rfl rfl rfl
  · exact exec_idle herr hphase (decide_eq_true hr) rfl rfl
  · exact exec_round herr hphase hr

/-- The lanes after rounds 0 to `n - 1` in this order. -/
def roundsFrom (A : Lanes) (n : Nat) : Lanes := (List.range n).foldl keccakRound A

theorem roundsFrom_succ (A : Lanes) (n : Nat) : roundsFrom A (n + 1) = keccakRound (roundsFrom A n) n := by
  rw [roundsFrom, List.range_succ, List.foldl_concat, roundsFrom]

/-- The permutation is its 24 rounds (rule R102). -/
theorem keccakF_eq_roundsFrom (A : Lanes) : keccakF A = roundsFrom A 24 := by
  rw [keccakF, roundsFrom]

/-- The state that ROUND 0 to ROUND `n - 1` leave. -/
def afterRounds (s : State) (n : Nat) : State := s.setLanes (roundsFrom s.lanes n)

/-- ROUND `n` goes on from the rounds before it. -/
theorem exec_round_afterRounds {s : State} {n : Nat} (herr : s.err = .noError) (hphase : s.phase = .idle)
    (hn : n < 24) : exec (.round n) (afterRounds s n) = .next (afterRounds s (n + 1)) := by
  rw [afterRounds, afterRounds, roundsFrom_succ]
  exact exec_round herr hphase hn

/-- Settles O23: PERMUTE leaves what the 24 rounds leave, each going on from the one before. -/
theorem permuteIsTheTwentyFourRounds : Obligations.PermuteIsTheTwentyFourRounds := by
  unfold Obligations.PermuteIsTheTwentyFourRounds
  intro s herr hphase
  refine ⟨afterRounds s, rfl, fun r hr => exec_round_afterRounds herr hphase hr, ?_, rfl⟩
  rw [exec_permute herr hphase, keccakF_eq_roundsFrom, afterRounds, State.setLanes_eq]

theorem roundsFrom_bijective (n : Nat) : Function.Bijective fun A => roundsFrom A n := by
  induction n with
  | zero => exact Function.bijective_id
  | succ n ih =>
    simp only [roundsFrom_succ]
    exact (keccakRound_bijective n).comp ih

/-- The permutation is a bijection on the lanes (rule R104), as each of its rounds is one. -/
theorem keccakF_bijective : Function.Bijective keccakF := by
  rw [funext keccakF_eq_roundsFrom]
  exact roundsFrom_bijective 24

/-- The lanes that PERMUTE leaves (rule R103). -/
theorem lanes_of_exec_permute {s t : State} (herr : s.err = .noError) (hphase : s.phase = .idle)
    (h : exec .permute s = .next t) : t.lanes = keccakF s.lanes := by
  rw [exec_permute herr hphase, Host.Outcome.next.injEq] at h
  rw [← h]

/-- Settles O25: the command leaves `keccakF` of the lanes, and `keccakF` is a bijection. -/
theorem permuteLosesNoInformation : Obligations.PermuteLosesNoInformation := by
  unfold Obligations.PermuteLosesNoInformation
  intro s herr hphase
  refine ⟨fun B t u ht hu hlanes => keccakF_bijective.injective ?_, fun A => ?_⟩
  · calc keccakF B
      _ = u.lanes := (lanes_of_exec_permute (s := { s with lanes := B }) herr hphase hu).symm
      _ = t.lanes := hlanes.symm
      _ = keccakF s.lanes := lanes_of_exec_permute herr hphase ht
  · obtain ⟨B, rfl⟩ := keccakF_bijective.surjective A
    exact ⟨B, exec_permute herr hphase⟩

end Sys2Proof.Machine

namespace Sys2Proof.Machine

/-! ### The sponge commands when they are admitted (rules R111 to R120) -/

/-- INIT runs in every phase (rule R111). -/
theorem exec_init {s : State} (herr : s.err = .noError) :
    exec .init s = .next { s with lanes := zeroLanes, phase := .absorbing } :=
  exec_runs herr rfl rfl (by simp [ranges])

/-- ABSORB runs in ABSORBING once its block may be read (rule R113). -/
theorem exec_absorb {s : State} (herr : s.err = .noError) (hphase : s.phase = .absorbing)
    (hsrc : Admitted s.platform s.src 136 .read) :
    exec .absorb s = .next { s with lanes := absorbBlock s.lanes (readBlock s.mem s.src) } :=
  exec_runs herr rfl (by simp [allowed, hphase]) (by simpa [ranges] using hsrc)

/-- FINAL runs in ABSORBING once its tail is shorter than a block and may be read (rule R115). -/
theorem exec_final {s : State} (herr : s.err = .noError) (hphase : s.phase = .absorbing) (hlen : s.len < 136)
    (hsrc : Admitted s.platform s.src s.len .read) :
    exec .final s =
      .next { s with lanes := absorbBlock s.lanes (padBlock (s.mem.readBytes s.src s.len)), phase := .done } := by
  rw [exec_runs (i := .final) herr (decide_eq_true hlen) (by simp [allowed, hphase]) (by simpa [ranges] using hsrc),
    effectOf_final, absorbBlock]

/-- SQUEEZE runs in DONE once the digest may be written (rule R119). -/
theorem exec_squeeze {s : State} (herr : s.err = .noError) (hphase : s.phase = .done)
    (hdst : Admitted s.platform s.dst 32 .write) :
    exec .squeeze s = .next { s with mem := s.mem.writeBytes s.dst (digest s.lanes), phase := .idle } := by
  rw [exec_runs herr rfl (by simp [allowed, hphase]) (by simpa [ranges] using hdst), effectOf_squeeze]

/-- HASH runs in every phase once its message may be read and its digest written (rule R120). -/
theorem exec_hash {s : State} (herr : s.err = .noError) (hsrc : Admitted s.platform s.src s.len .read)
    (hdst : Admitted s.platform s.dst 32 .write) : exec .hash s = .next (effectOf .hash s) :=
  exec_runs herr rfl rfl (by simpa [ranges] using ⟨hsrc, hdst⟩)

/-- Settles O28: INIT names no range, and each lane of the zero state is 0. -/
theorem initCompletes : Obligations.InitCompletes := by
  unfold Obligations.InitCompletes
  intro s herr
  exact ⟨by decide, by simp [accesses_eq, inputLength, outputLength], zeroLanes, exec_init herr, zeroLanes_lane⟩

/-! ### The bytes that a block puts into the lanes (rules R10, R112, R116) -/

theorem laneByte_xor (a b : Lane) (j : Nat) : laneByte (a ^^^ b) j = laneByte a j ^^^ laneByte b j :=
  BitVec.extractLsb'_xor

/-- Byte `j` of lane `k` takes byte `8k + j` of the block. -/
theorem laneByte_xorBlock (A : Lanes) (bk : Block) {k : Fin 25} (hk : k.val < 17) (j : Fin 8) :
    laneByte (xorBlock A bk)[k] j.val =
      laneByte A[k] j.val ^^^ bk[(⟨8 * k.val + j.val, by omega⟩ : Fin 136)] := by
  have hbyte : 8 * k.val + j.val < 136 := by omega
  rw [xorBlock_lane, if_pos hk, laneByte_xor, blockLane, laneByte_le64]
  simp [Vector.getD, hbyte]

/-- The capacity lanes take no part in the XOR. -/
theorem xorBlock_capacity_lane (A : Lanes) (bk : Block) {k : Fin 25} (hk : 17 ≤ k.val) :
    (xorBlock A bk)[k] = A[k] := by
  rw [xorBlock_lane, if_neg (by omega)]

/-- Settles O29: the block XOR is that of the bytes at SRC. -/
theorem absorbCompletes : Obligations.AbsorbCompletes := by
  unfold Obligations.AbsorbCompletes
  intro s herr hphase hsrc
  refine ⟨xorBlock s.lanes (readBlock s.mem s.src), exec_absorb herr hphase hsrc, fun k j hk => ?_,
    fun k hk => xorBlock_capacity_lane _ _ hk⟩
  rw [laneByte_xorBlock _ _ hk, readBlock_byte, Nat.add_assoc]

/-- A byte of the tail that memory holds, zero-filled past its end. -/
theorem Memory.getD_readBytes_ite (m : Memory) (base n k : Nat) :
    (m.readBytes base n).getD k 0#8 = if k < n then m.read (base + k) else 0#8 := by
  split
  · exact Memory.getD_readBytes m base n k ‹_›
  · exact List.getD_eq_default _ _ (by simpa using ‹¬ k < n›)

/-- Settles O30: the block XOR is that of the tail at SRC with its two markers. -/
theorem finalCompletes : Obligations.FinalCompletes := by
  unfold Obligations.FinalCompletes
  intro s herr hphase hlen hsrc
  refine ⟨xorBlock s.lanes (padBlock (s.mem.readBytes s.src s.len)), exec_final herr hphase hlen hsrc,
    fun k j hk => ?_, fun k hk => xorBlock_capacity_lane _ _ hk⟩
  rw [laneByte_xorBlock _ _ hk, padBlock_byte, Memory.getD_readBytes_ite, Memory.length_readBytes]

/-- The lanes of the padded empty tail (rule R117). -/
theorem blockLane_padBlock_nil : ∀ k : Fin 25, blockLane (padBlock []) k.val =
    if k.val = 0 then 0x0000000000000001#64 else if k.val = 16 then 0x8000000000000000#64 else 0#64 := by
  decide +kernel

/-- The empty tail flips bit 0 of lane 0 and bit 63 of lane 16. -/
theorem xorBlock_padBlock_nil_lane (A : Lanes) (k : Fin 25) : (xorBlock A (padBlock []))[k] =
    A[k] ^^^ if k.val = 0 then 0x0000000000000001#64 else if k.val = 16 then 0x8000000000000000#64 else 0#64 := by
  rw [xorBlock_lane, blockLane_padBlock_nil]
  split
  · rfl
  · rw [if_neg (by omega), if_neg (by omega), BitVec.xor_zero]

theorem messageTail_eq_nil {m : List Byte} (h : m.length % 136 = 0) : messageTail m = [] :=
  List.drop_eq_nil_of_le (by omega)

/-- Settles O31: the empty range is read nowhere and always admitted, and the block of the empty tail is 0 but for
its two markers. -/
theorem emptyTailFlipsTwoBits : Obligations.EmptyTailFlipsTwoBits := by
  unfold Obligations.EmptyTailFlipsTwoBits
  refine ⟨fun s herr hphase hlen => ?_, fun m hm => by rw [paddedBlocks, messageTail_eq_nil hm]⟩
  have hrun := exec_final herr hphase (by omega) (.inl hlen)
  have htail : s.mem.readBytes s.src s.len = [] := by rw [hlen]; rfl
  have hlane := xorBlock_padBlock_nil_lane s.lanes
  rw [htail] at hrun
  refine ⟨by simp [accesses_eq, inputLength, outputLength, hlen], xorBlock s.lanes (padBlock []), hrun, hlane 0,
    hlane 16, fun k hzero hsixteen => ?_⟩
  rw [hlane, if_neg hzero, if_neg hsixteen, BitVec.xor_zero]

/-- Settles O32: which of the three parts of a byte of the padded block are 0. -/
theorem paddedBlockBytes : Obligations.PaddedBlockBytes := by
  unfold Obligations.PaddedBlockBytes
  intro t ht
  have hlast : (padBlock t)[135] = t.getD 135 0#8 ||| (if 135 = t.length then 0x01#8 else 0#8) ||| 0x80#8 :=
    padBlock_byte t 135
  have hpast : ∀ j, t.length ≤ j → t.getD j 0#8 = 0#8 := fun j hj => List.getD_eq_default _ _ hj
  refine ⟨fun j hj => ?_, fun hfull => ?_, fun hshort => ⟨fun j hj => ?_, fun j hj hj' => ?_, ?_⟩⟩
  · rw [padBlock_byte, if_neg (by omega), if_neg (by omega), BitVec.or_zero, BitVec.or_zero]
  · rw [hlast, hpast 135 (by omega), if_pos hfull.symm]
    rfl
  · rw [padBlock_byte, hpast j (by omega), if_pos hj, if_neg (by omega)]
    rfl
  · rw [padBlock_byte, hpast j (by omega), if_neg (by omega), if_neg (by omega)]
    rfl
  · rw [hlast, hpast 135 (by omega), if_neg (by omega)]
    rfl

/-- Settles O33: the digest is the first four lanes of the image. -/
theorem squeezeCompletes : Obligations.SqueezeCompletes := by
  unfold Obligations.SqueezeCompletes
  intro s hwf herr hphase hdst
  refine ⟨s.mem.writeBytes s.dst (digest s.lanes), exec_squeeze herr hphase hdst, fun k j hk => ?_,
    fun a ha => ?_⟩
  · have hin : 8 * k.val + j.val < 32 := by omega
    rw [Nat.add_assoc, Memory.read_writeBytes_inside hwf (length_digest _) hin]
    exact imageBytes_getD_lane s.lanes k j hin
  · exact Memory.read_writeBytes_outside hwf (length_digest _) ha

/-! ### The blocks of a message (rules R114, R116, R121, R123) -/

theorem paddedBlocks_block_append (bk : Block) (m : List Byte) :
    paddedBlocks (bk.toList ++ m) = bk :: paddedBlocks m := by
  rw [paddedBlocks, fullBlocks_block_append, messageTail_block_append, List.cons_append, ← paddedBlocks]

theorem paddedBlocks_of_short {m : List Byte} (h : m.length < 136) : paddedBlocks m = [padBlock m] := by
  simp [paddedBlocks, fullBlocks, messageTail, Nat.div_eq_of_lt h]

theorem paddedBlocks_blocks_append (bs : List Block) {t : List Byte} (ht : t.length < 136) :
    paddedBlocks (bs.flatMap Vector.toList ++ t) = bs ++ [padBlock t] := by
  induction bs with
  | nil => exact paddedBlocks_of_short ht
  | cons b bs ih => rw [List.flatMap_cons, List.append_assoc, paddedBlocks_block_append, ih, List.cons_append]

theorem absorbMessage_blocks_append (bs : List Block) {t : List Byte} (ht : t.length < 136) :
    absorbMessage (bs.flatMap Vector.toList ++ t) = absorbBlock (bs.foldl absorbBlock zeroLanes) (padBlock t) := by
  rw [absorbMessage, paddedBlocks_blocks_append bs ht, List.foldl_concat]

theorem length_blocks_bytes (bs : List Block) : (bs.flatMap Vector.toList).length = 136 * bs.length := by
  simp [List.length_flatMap, Nat.mul_comm]

/-- Every message is some blocks and a short tail (rule R114): split off one block as long as there is one. -/
theorem exists_blocks_tail (m : List Byte) :
    ∃ (bs : List Block) (t : List Byte), m = bs.flatMap Vector.toList ++ t ∧ t.length < 136 := by
  by_cases hshort : m.length < 136
  · exact ⟨[], m, rfl, hshort⟩
  · obtain ⟨bs, t, hm, ht⟩ := exists_blocks_tail (m.drop 136)
    have hlen : (m.take 136).length = 136 := by rw [List.length_take]; omega
    refine ⟨⟨(m.take 136).toArray, hlen⟩ :: bs, t, ?_, ht⟩
    rw [List.flatMap_cons, List.append_assoc, ← hm]
    exact (List.take_append_drop 136 m).symm
termination_by m.length
decreasing_by rw [List.length_drop]; omega

/-- Settles O35: each block in front goes first into the list of blocks, and the lengths of blocks and tail are
quotient and remainder of the length by 136. -/
theorem messageIsAbsorbedBlockByBlock : Obligations.MessageIsAbsorbedBlockByBlock := by
  unfold Obligations.MessageIsAbsorbedBlockByBlock
  refine ⟨fun bs t ht => absorbMessage_blocks_append bs ht, fun m => ?_, paddedBlocks_block_append,
    fun m => paddedBlocks_of_short⟩
  obtain ⟨bs, t, rfl, ht⟩ := exists_blocks_tail m
  have hlen : (bs.flatMap Vector.toList ++ t).length = 136 * bs.length + t.length := by
    rw [List.length_append, length_blocks_bytes]
  exact ⟨bs, t, rfl, by omega, by omega⟩

theorem length_paddedBlocks (m : List Byte) : (paddedBlocks m).length = m.length / 136 + 1 := by
  simp [paddedBlocks, fullBlocks]

/-- Settles O36: one XOR and permutation is `absorbBlock`. -/
theorem digestSizeAndPermutationCount : Obligations.DigestSizeAndPermutationCount := by
  unfold Obligations.DigestSizeAndPermutationCount
  exact fun m => ⟨rfl, length_paddedBlocks m, rfl, length_keccak256 m⟩

/-- Settles O39: both messages are the same list of bytes, and HASH leaves what this list alone gives. -/
theorem digestDependsOnTheMessageOnly : Obligations.DigestDependsOnTheMessageOnly := by
  unfold Obligations.DigestDependsOnTheMessageOnly
  intro s s' t t' hwf hwf' herr herr' hlen hbytes h h' hclear hclear'
  have hmsg : s.mem.readBytes s.src s.len = s'.mem.readBytes s'.src s'.len :=
    Memory.eq_readBytes (by rw [Memory.length_readBytes, hlen]) fun k hk => by
      rw [Memory.getD_readBytes _ _ _ _ (hlen ▸ hk), hbytes k (hlen ▸ hk)]
  have hstored : storedBytes .hash s = storedBytes .hash s' := congrArg keccak256 hmsg
  refine ⟨?_, fun n hn => ?_⟩
  · cases (exec_admitted herr ((exec_err herr h).symm.trans hclear)).symm.trans h
    cases (exec_admitted herr' ((exec_err herr' h').symm.trans hclear')).symm.trans h'
    exact congrArg absorbMessage hmsg
  · rw [exec_mem_of_noError h hclear, exec_mem_of_noError h' hclear', ← hstored,
      Memory.read_writeBytes_inside hwf (length_storedBytes .hash s) hn,
      Memory.read_writeBytes_inside hwf' (length_storedBytes .hash s) hn]

end Sys2Proof.Machine

namespace Sys2Proof.Machine

/-! ### HASH by the primitive commands (rule R122) -/

theorem scriptOps_append (lines lines' : List Line) :
    scriptOps (lines ++ lines') = scriptOps lines ++ scriptOps lines' := List.map_append

/-- The script takes `s` to `t`, whatever the host's accesses after it are. -/
def Runs (s : State) (lines : List Line) (t : State) : Prop :=
  ∀ rest, runSteps (scriptOps lines).length (s.setPending (scriptOps lines ++ rest)) = .next (t.setPending rest)

theorem runs_nil (s : State) : Runs s [] s := fun _ => runSteps_zero _

/-- Scripts run one after the other. -/
theorem Runs.append {s t u : State} {lines lines' : List Line} (h : Runs s lines t) (h' : Runs t lines' u) :
    Runs s (lines ++ lines') u := by
  intro rest
  rw [scriptOps_append, List.append_assoc, List.length_append, runSteps_add (h _), h' rest]

theorem runs_cmd {i : Instr} {s t : State} (hwf : i.wf = true) (h : exec i s = .next t) : Runs s [.cmd i] t :=
  fun rest => (runSteps_cmd (lines := []) hwf h).trans (runs_nil t rest)

theorem runs_wr {s : State} (r : WrReg) {v : Nat} (hv : v < 2 ^ s.platform.aw) :
    Runs s [.wr r v] (s.setOperand r v) :=
  fun rest => (runSteps_wr (lines := []) r hv).trans (runs_nil _ rest)

/-- A `wr SRC` line drops the bits at and above `AW` (rule R35). -/
theorem runs_wr_src (s : State) (v : Nat) : Runs s [.wr .src v] { s with src := v % 2 ^ s.platform.aw } :=
  fun rest => (runSteps_line (t := s.setSrc v) (lines := []) rfl).trans (runs_nil _ rest)

/-- A part of an admitted range is admitted. -/
theorem Admitted.part {p : Platform} {base n base' n' : Nat} {k : AccessKind} (h : Admitted p base n k)
    (hlow : base ≤ base') (hhigh : base' + n' ≤ base + n) : Admitted p base' n' k := by
  obtain hempty | ⟨htop, hok⟩ := h
  · exact .inl (by omega)
  · exact .inr ⟨by omega, fun a ha ha' => hok a (by omega) (by omega)⟩

/-- Only the base of an empty range can be cut off at `2^AW`. -/
theorem Admitted.base_mod {p : Platform} {base n : Nat} {k : AccessKind} (h : Admitted p base n k) :
    n = 0 ∨ base % 2 ^ p.aw = base := by
  obtain hempty | ⟨htop, -⟩ := h
  · exact .inl hempty
  · by_cases hempty : n = 0
    · exact .inl hempty
    · exact .inr (Nat.mod_eq_of_lt (by omega))

/-! The pseudo-instructions for the block commands (rule R81). -/

/-- `ABSORBAT` for each base in turn absorbs the blocks that lie there. -/
theorem runs_absorbAt (bases : List Nat) {s : State} (herr : s.err = .noError) (hphase : s.phase = .absorbing)
    (hbases : ∀ base ∈ bases, base < 2 ^ s.platform.aw ∧ Admitted s.platform base 136 .read) :
    ∃ p, Runs s (bases.flatMap fun base => (Pseudo.absorbAt base).expand)
      { s with src := p, lanes := (bases.map (readBlock s.mem)).foldl absorbBlock s.lanes } := by
  induction bases generalizing s with
  | nil => exact ⟨s.src, runs_nil s⟩
  | cons base bases ih =>
    obtain ⟨⟨hbase, hread⟩, hbases⟩ := List.forall_mem_cons.1 hbases
    have hwr : Runs s [.wr .src base] { s with src := base } := runs_wr .src hbase
    have habsorb := runs_cmd rfl (exec_absorb (s := { s with src := base }) herr hphase hread)
    obtain ⟨p, hrest⟩ :=
      ih (s := { s with src := base, lanes := absorbBlock s.lanes (readBlock s.mem base) }) herr hphase hbases
    rw [List.map_cons, List.foldl_cons]
    exact ⟨p, (hwr.append habsorb).append hrest⟩

/-- `FINALAT` closes the message with the tail at `base`, also where SRC stores 0 for an empty tail at `2^AW`
(log 16). -/
theorem runs_finalAt {s : State} {base r : Nat} (herr : s.err = .noError) (hphase : s.phase = .absorbing)
    (hr : r < 136) (hlen : r < 2 ^ s.platform.aw) (hread : Admitted s.platform base r .read) :
    ∃ p, Runs s (Pseudo.finalAt base r).expand
      { s with
        src := p, len := r, lanes := absorbBlock s.lanes (padBlock (s.mem.readBytes base r)), phase := .done } := by
  have hsrc := runs_wr_src s base
  generalize hp : base % 2 ^ s.platform.aw = p at hsrc
  have hwr : Runs { s with src := p } [.wr .len r] { s with src := p, len := r } := runs_wr .len hlen
  have htail : Admitted s.platform p r .read ∧ s.mem.readBytes p r = s.mem.readBytes base r := by
    obtain rfl | hbase := hread.base_mod
    · exact ⟨.inl rfl, rfl⟩
    · obtain rfl := hp.symm.trans hbase
      exact ⟨hread, rfl⟩
  obtain ⟨hread', hbytes⟩ := htail
  have hfinal := exec_final (s := { s with src := p, len := r }) herr hphase hr hread'
  rw [← hbytes]
  exact ⟨p, (hsrc.append hwr).append (runs_cmd rfl hfinal)⟩

/-- `SQUEEZETO` stores the digest at `d`. -/
theorem runs_squeezeTo {s : State} {d : Nat} (herr : s.err = .noError) (hphase : s.phase = .done)
    (hd : d < 2 ^ s.platform.aw) (hwrite : Admitted s.platform d 32 .write) :
    Runs s (Pseudo.squeezeTo d).expand
      { s with dst := d, mem := s.mem.writeBytes d (digest s.lanes), phase := .idle } :=
  (runs_wr .dst hd).append (runs_cmd rfl (exec_squeeze (s := { s with dst := d }) herr hphase hwrite))

/-! The message as it lies in memory (rule R114). -/

/-- Where the full blocks of the `n` bytes at `base` lie. -/
def blockBases (base n : Nat) : List Nat := (List.range (n / 136)).map fun b => base + 136 * b

theorem fullBlocks_readBytes (m : Memory) (base n : Nat) :
    fullBlocks (m.readBytes base n) = (blockBases base n).map (readBlock m) := by
  rw [fullBlocks, Memory.length_readBytes, blockBases, List.map_map]
  refine List.map_congr_left fun b hb => ?_
  have hb : b < n / 136 := List.mem_range.1 hb
  refine congrArg Vector.ofFn (funext fun j => ?_)
  rw [Memory.getD_readBytes _ _ _ _ (by omega), Nat.add_assoc]

theorem messageTail_readBytes (m : Memory) (base n : Nat) :
    messageTail (m.readBytes base n) = m.readBytes (base + 136 * (n / 136)) (n % 136) := by
  have hlen : n - 136 * (n / 136) = n % 136 := by omega
  rw [messageTail, Memory.length_readBytes, Memory.readBytes, ← List.map_drop, List.drop_range', hlen, Nat.mul_one,
    Memory.readBytes]

theorem absorbMessage_readBytes (m : Memory) (base n : Nat) :
    absorbMessage (m.readBytes base n) =
      absorbBlock (((blockBases base n).map (readBlock m)).foldl absorbBlock zeroLanes)
        (padBlock (m.readBytes (base + 136 * (n / 136)) (n % 136))) := by
  rw [absorbMessage, paddedBlocks, List.foldl_concat, fullBlocks_readBytes, messageTail_readBytes]

/-- Each full block of an admitted message is admitted, at a base of `AW` bits. -/
theorem blockBases_admitted {p : Platform} {base n : Nat} (h : Admitted p base n .read) :
    ∀ a ∈ blockBases base n, a < 2 ^ p.aw ∧ Admitted p a 136 .read := by
  intro a ha
  obtain ⟨b, hb, rfl⟩ := List.mem_map.1 ha
  have hb : b < n / 136 := List.mem_range.1 hb
  have hblock : Admitted p (base + 136 * b) 136 .read := h.part (by omega) (by omega)
  obtain hempty | ⟨htop, hok⟩ := hblock
  · omega
  · exact ⟨by omega, .inr ⟨htop, hok⟩⟩

/-- The script of rule R122 leaves what HASH leaves, but for SRC and LEN. -/
theorem runs_primitiveHash {s : State} (herr : s.err = .noError) (hops : s.OperandsInv)
    (hsrc : Admitted s.platform s.src s.len .read) (hdst : Admitted s.platform s.dst 32 .write) :
    ∃ p n, Runs s (primitiveHash s.src s.len s.dst) { effectOf .hash s with src := p, len := n } := by
  obtain ⟨-, hlenlt, hdstlt⟩ := hops
  have htail : Admitted s.platform (s.src + 136 * (s.len / 136)) (s.len % 136) .read :=
    hsrc.part (by omega) (by omega)
  obtain ⟨p, habsorb⟩ := runs_absorbAt (blockBases s.src s.len)
    (s := { s with lanes := zeroLanes, phase := .absorbing }) herr rfl (blockBases_admitted hsrc)
  have hbases : (blockBases s.src s.len).flatMap (fun base => (Pseudo.absorbAt base).expand) =
      (List.range (s.len / 136)).flatMap fun b => (Pseudo.absorbAt (s.src + 136 * b)).expand := List.flatMap_map ..
  rw [hbases] at habsorb
  rw [effectOf_hash, keccak256, absorbMessage_readBytes]
  -- The lanes and the memory are named, so that matching the states of the run never unfolds the permutation.
  generalize ((blockBases s.src s.len).map (readBlock s.mem)).foldl absorbBlock zeroLanes = A at habsorb ⊢
  obtain ⟨p', hfinal⟩ := runs_finalAt (s := { s with src := p, lanes := A, phase := .absorbing }) herr rfl
    (Nat.mod_lt _ (by decide)) (Nat.lt_of_le_of_lt (Nat.mod_le ..) hlenlt) htail
  generalize absorbBlock A _ = B at hfinal ⊢
  have hsqueeze := runs_squeezeTo (s := { s with src := p', len := s.len % 136, lanes := B, phase := .done })
    herr rfl hdstlt hdst
  generalize s.mem.writeBytes s.dst (digest B) = m at hsqueeze ⊢
  exact ⟨p', s.len % 136, (((runs_cmd rfl (exec_init herr)).append habsorb).append hfinal).append hsqueeze⟩

/-- Settles O37: the script absorbs the padded blocks of the message from the zero state, as HASH does. -/
theorem hashEqualsPrimitiveCommands : Obligations.HashEqualsPrimitiveCommands := by
  unfold Obligations.HashEqualsPrimitiveCommands
  intro s rest herr hops hsrc hdst
  obtain ⟨p, n, hrun⟩ := runs_primitiveHash herr hops hsrc hdst
  have hhash := exec_hash herr hsrc hdst
  have hclear : (effectOf .hash s).err = .noError := (effectOf_err s .hash).trans herr
  generalize effectOf .hash s = t at hrun hhash hclear
  exact ⟨t, _, hhash, hrun rest, rfl, rfl, rfl, hclear, rfl⟩

end Sys2Proof.Machine

namespace Sys2Proof.Machine

/-! ### State transfer and NOP (rules R53, R130 to R132) -/

/-- Lanes with the same memory image are equal (rule R53). -/
theorem lanes_ext_laneByte {A B : Lanes}
    (h : ∀ (i : Fin 25) (j : Fin 8), laneByte A[i] j.val = laneByte B[i] j.val) : A = B := by
  apply lanes_ext
  intro i
  calc A[i]
    _ = le64 (fun j => laneByte A[i] j.val) := (le64_laneByte A[i]).symm
    _ = le64 (fun j => laneByte B[i] j.val) := congrArg le64 (funext (h i))
    _ = B[i] := le64_laneByte B[i]

/-- Settles O43: the bytes that LDST loads are those that STST stored, and a lane is its bytes. -/
theorem storeThenLoadRestoresTheState : Obligations.StoreThenLoadRestoresTheState := by
  unfold Obligations.StoreThenLoadRestoresTheState
  intro s t B hwf herr hphase hwrite hread h
  obtain ⟨m, hstst, hstored, -⟩ := ststCompletes s hwf herr hphase hwrite
  cases hstst.symm.trans h
  obtain ⟨A, hldst, hloaded⟩ := ldstCompletes { s with lanes := B, src := s.dst, mem := m } herr hphase hread
  exact ⟨_, hldst, lanes_ext_laneByte fun i j => (hloaded i j).trans (hstored i j)⟩

/-- NOP passes every check, and has no effect (rule R132). -/
theorem exec_nop (s : State) : exec .nop s = .next s := by
  by_cases herr : s.err = .noError
  · exact exec_runs herr rfl rfl (by simp [ranges])
  · exact exec_refused herr

theorem opcode_eq_zero_iff (i : Instr) : opcode i = 0#8 ↔ i = .nop := by
  cases i <;> simp [opcode]

/-- Settles O44: NOP is the only command with opcode 0, and 0 is its only word. -/
theorem nopHasNoEffect : Obligations.NopHasNoEffect := by
  unfold Obligations.NopHasNoEffect
  intro s
  refine ⟨exec_nop s, rfl, fun w hop hw herr => ?_⟩
  cases hdec : decode w with
  | error e => exact issue_rejected herr hdec
  | ok i =>
    have hword : encode i = w := encode_of_decode hdec
    have hnop : i = .nop := by rwa [← opcode_eq_zero_iff, ← opField_encode, hword]
    subst hnop
    exact absurd hword.symm hw

/-! ### Control does not depend on data (rule R136) -/

/-- The two states agree on all that rule R136 names: they may differ in the lanes and in memory. -/
structure SameControl (s s' : State) : Prop where
  phase : s.phase = s'.phase
  err : s.err = s'.err
  ecmd : s.ecmd = s'.ecmd
  src : s.src = s'.src
  len : s.len = s'.len
  dst : s.dst = s'.dst
  platform : s.platform = s'.platform

section SameControl

variable {s s' : State} (hsame : SameControl s s') (i : Instr)
include hsame

theorem SameControl.ranges_eq : ranges i s = ranges i s' := by
  cases i <;> simp only [ranges, hsame.src, hsame.len, hsame.dst]

theorem SameControl.accesses_eq : accesses i s = accesses i s' := by
  rw [accesses, accesses, hsame.ranges_eq]

theorem SameControl.admission_eq : admission i s = admission i s' := by
  simp only [admission, hsame.len, hsame.phase, hsame.platform, hsame.ranges_eq]

theorem SameControl.effectOf_phase_eq : (effectOf i s).phase = (effectOf i s').phase := by
  cases i <;> simp [effectOf, hsame.phase]

end SameControl

/-- Settles O47: both runs take the same one of the three ways of a command. -/
theorem controlDoesNotDependOnData : Obligations.ControlDoesNotDependOnData := by
  unfold Obligations.ControlDoesNotDependOnData
  intro i s s' t t' hphase herr hecmd hsrc hlen hdst hplatform h h'
  have hsame : SameControl s s' := ⟨hphase, herr, hecmd, hsrc, hlen, hdst, hplatform⟩
  have hadmission := hsame.admission_eq i
  have haccesses := hsame.accesses_eq i
  obtain ⟨hset, rfl⟩ | ⟨hclear, hadm, rfl⟩ | ⟨hclear, hfails, rfl⟩ := exec_cases h
  · cases (exec_refused (herr ▸ hset)).symm.trans h'
    exact ⟨hphase, herr, hecmd, haccesses⟩
  · cases (exec_admitted (herr ▸ hclear) (hadmission ▸ hadm)).symm.trans h'
    exact ⟨hsame.effectOf_phase_eq i, by simpa using herr, by simpa using hecmd, haccesses⟩
  · rw [exec_eq_command, command_raises (herr ▸ hclear) (hadmission ▸ hfails)] at h'
    cases h'
    exact ⟨hphase, hadmission, rfl, haccesses⟩

end Sys2Proof.Machine

namespace Sys2Proof.Machine

/-! ### Error entry (rules R31, R144) -/

/-- Whatever raises the error, issuing a word raises it with ERR and ECMD alone (rule R144). -/
theorem issue_enters_error {w : CmdWord} {s t : State} (herr : s.err = .noError) (h : issue w s = .next t)
    (hset : t.err ≠ .noError) : t = s.raiseError t.err w := by
  obtain ⟨hset', -⟩ | ⟨-, -, rfl⟩ | ⟨-, i, hdec, hexec⟩ := issue_cases h
  · exact absurd herr hset'
  · rfl
  · rw [← encode_of_decode hdec]
    exact exec_raises herr hexec hset

/-- The host reads the error code in bits 7:4 of STATUS (rule R31). -/
theorem hostRead_status_err (s : State) : hostRead 1#3 s / 16 % 16 = s.err.code.toNat := by
  obtain ⟨-, -, hfield, -⟩ := statusWord_fields s
  rw [← hfield, BitVec.extractLsb'_toNat, Nat.shiftRight_eq_div_pow]
  rfl

theorem ErrCode.code_toNat_eq_zero_iff (e : ErrCode) : e.code.toNat = 0 ↔ e = .noError := by
  cases e <;> decide

/-- Settles O9: issuing a word enters the error with that word, and no error has code 0. -/
theorem errorEntryWritesErrAndEcmdOnly : Obligations.ErrorEntryWritesErrAndEcmdOnly := by
  unfold Obligations.ErrorEntryWritesErrAndEcmdOnly
  intro s t w herr h hset
  refine ⟨issue_enters_error herr h hset, ?_⟩
  rwa [hostRead_status_err, ne_eq, ErrCode.code_toNat_eq_zero_iff]

/-! ### While ERR is set (rules R145, R146) -/

/-- While ERR is set a word written to CMD does nothing, whether it is a command or not (rule R145). -/
theorem issue_refused {w : CmdWord} {s : State} (hset : s.err ≠ .noError) : issue w s = .next s := if_pos hset

/-- Settles O10: CMD issues the word, which is refused, and the rest is the register map of rule R29. -/
theorem refusalWhileInError : Obligations.RefusalWhileInError := by
  unfold Obligations.RefusalWhileInError
  intro s v n hset
  exact ⟨issue_refused hset, fun i => exec_refused hset, rfl, rfl, rfl, rfl, rfl, rfl, rfl, rfl, rfl⟩

/-- While ERR is set a write to a register changes the operand registers alone (rules R145, R146). -/
theorem hostWrite_in_error {n : RegNum} {v : Nat} {s t : State} (hset : s.err ≠ .noError)
    (h : hostWrite n v s = .next t) : ∃ src len dst, t = { s with src := src, len := len, dst := dst } := by
  obtain ⟨-, hissue⟩ | rfl | rfl | rfl | rfl := hostWrite_cases h
  · cases (issue_refused hset).symm.trans hissue
    exact ⟨s.src, s.len, s.dst, rfl⟩
  all_goals exact ⟨_, _, _, rfl⟩

/-- While ERR is set an access that is no reset keeps the error record, the lanes and PHASE, and the memory unless it
is the host's own store (rule R146). -/
theorem perform_in_error {op : HostOp} {s t : State} (hset : s.err ≠ .noError)
    (hduring : ∀ w, op ≠ .resetDuring w) (hreset : op ≠ .reset) (h : perform op s = .next t) :
    t.err = s.err ∧ t.ecmd = s.ecmd ∧ t.lanes = s.lanes ∧ t.phase = s.phase ∧
      ((∀ a v, op ≠ .memWrite a v) → t.mem = s.mem) := by
  cases op with
  | write n v =>
    obtain ⟨src, len, dst, rfl⟩ := hostWrite_in_error hset h
    exact ⟨rfl, rfl, rfl, rfl, fun _ => rfl⟩
  | read n =>
    cases h
    exact ⟨rfl, rfl, rfl, rfl, fun _ => rfl⟩
  | memWrite a v =>
    obtain ⟨-, rfl⟩ := perform_memWrite h
    exact ⟨rfl, rfl, rfl, rfl, fun hstore => absurd rfl (hstore a v)⟩
  | memRead a =>
    obtain rfl := perform_memRead h
    exact ⟨rfl, rfl, rfl, rfl, fun _ => rfl⟩
  | reset => exact absurd rfl hreset
  | resetDuring w => exact absurd rfl (hduring w)

/-- Both resets end in the reset of some state: R171 adds no more to R170 than the bytes that have landed. -/
theorem perform_reset {op : HostOp} {s t : State} (hop : op = .reset ∨ ∃ w, op = .resetDuring w)
    (h : perform op s = .next t) : ∃ u : State, t = u.applyReset := by
  obtain rfl | ⟨w, rfl⟩ := hop
  · cases h
    exact ⟨s, rfl⟩
  · obtain ⟨done, -, rfl⟩ := perform_resetDuring h
    exact ⟨_, rfl⟩

/-- Settles O11, from what one access of the host can do while ERR is set. -/
theorem onlyResetClearsTheError : Obligations.OnlyResetClearsTheError := by
  unfold Obligations.OnlyResetClearsTheError
  intro s t hset hstep
  obtain ⟨hpending, rfl⟩ | ⟨op, rest, hpending, hperform⟩ := step_cases hstep
  · simp [hpending]
  · simp only [hpending, List.head?_cons, ne_eq, Option.some.injEq]
    refine ⟨fun hduring hreset => ?_, fun hop => ?_⟩
    · exact perform_in_error (s := s.setPending rest) hset hduring hreset hperform
    · obtain ⟨u, rfl⟩ := perform_reset hop hperform
      exact ⟨rfl, rfl, zeroLanes_lane, rfl, rfl, rfl, rfl⟩

/-! ### The engine between commands (rule R155) -/

/-- Settles O53, the case of a step in which the host does nothing. -/
theorem idleEngineKeepsItsState : Obligations.IdleEngineKeepsItsState := fun _ => step_nil

end Sys2Proof.Machine

namespace Sys2Proof.Machine

/-! ### Reset during a command (rule R171) -/

/-- The addresses that a word writes are those of the command it decodes to; a word that is no command writes none. -/
theorem mem_wordWrites {w : CmdWord} {s : State} {a : Nat} :
    a ∈ wordWrites w s ↔ ∃ i, decode w = .ok i ∧ a ∈ writtenAddrs i s := by
  unfold wordWrites
  cases decode w <;> simp

/-- After a reset during a command the bytes that it was to write and that have landed are new, all others old. -/
theorem resetDuringState_read {w : CmdWord} {s done : State} (hwf : s.mem.wf = true) (a : Nat) :
    (resetDuringState w s done).mem.read a =
      if a ∈ wordWrites w s ∧ Config.resetLanded s.draws a = true then done.mem.read a else s.mem.read a := by
  simp only [resetDuringState, State.applyReset_mem, State.nextDraw_mem, State.setMem_mem,
    Memory.read_copyFrom hwf, List.mem_filter]

/-- Settles O51: the command always has an outcome, and a byte is new only if the command was to write it. -/
theorem resetDuringACommand : Obligations.ResetDuringACommand := by
  unfold Obligations.ResetDuringACommand
  intro s w hwf
  obtain ⟨done, hissue⟩ := issue_next w s
  have hperform : perform (.resetDuring w) s = .next (resetDuringState w s done) := by simp only [perform, hissue]
  refine ⟨done, _, hissue, hperform, zeroLanes_lane, rfl, rfl, rfl, rfl, rfl, rfl, fun a => ?_⟩
  rw [resetDuringState_read hwf]
  split
  · rename_i hlanded
    exact .inr ⟨rfl, mem_wordWrites.1 hlanded.1⟩
  · exact .inl rfl

end Sys2Proof.Machine
